-- ==== Sys2Proof/Word.lean ====
section
/-! DEFINITION. The words of the engine: one bit of a line, one sample, one command or response word (R7, R8, R10). -/

namespace Sys2Proof

/-- A command word or a response datum, 32 bits (R101, R34). -/
abbrev Word := BitVec 32

/-- The level of a line, one bit: 0 is logic low, 1 is logic high (R10). -/
abbrev Level := BitVec 1

/-- A raw sample, 24 bits, unsigned (R6 `W_SHREG`, R21). -/
abbrev Raw := BitVec 24

/-- A GPIO line identifier, 8 bits (R6 `PIN_W`, D4). -/
abbrev Pin := BitVec 8

end Sys2Proof
end

