-- ==== Sys2Proof/Syntax.lean ====
section
/-! DEFINITION. The nine host commands, the engine's instructions (R2, R103). One constructor per row of
spec/opcode_table.json; operands have the widths of R102. -/

namespace Sys2Proof

/-- A host command (R103). -/
inductive Instr where
  /-- `INIT dpin, cpin, gain`: format `I` (R131). -/
  | init (dpin cpin : Pin) (gain : BitVec 8)
  /-- `TEARDOWN`: format `Z` (R137). -/
  | teardown
  /-- `ISREADY`: format `Z` (R151). -/
  | isready
  /-- `WAITREADY iv`: format `V`, `iv` in microseconds (R153). -/
  | waitready (iv : BitVec 28)
  /-- `READ`: format `Z` (R161). -/
  | read
  /-- `TRYREAD`: format `Z` (R168). -/
  | tryread
  /-- `SETGAIN code`: format `V` (R181). -/
  | setgain (code : BitVec 28)
  /-- `PWRDOWN`: format `Z` (R191). -/
  | pwrdown
  /-- `PWRUP`: format `Z` (R194). -/
  | pwrup
  deriving DecidableEq, Repr

end Sys2Proof
end

