-- ==== Sys2Proof/WellFormed.lean ====
section
/-! DEFINITION. What is well formed: a command as a term (its operands fit their fields, which their types already
say) and an assembler line of R113, whose operands are plain numbers and which `AsmLine.check` turns into a command or
refuses by name. -/

namespace Sys2Proof

/-- Every operand lies in the range its field of the word can hold (R102). The operand types carry the widths, so this
holds of every term: `Instr.wellFormed_all` in Sys2Proof/Laws/Encoding.lean. -/
def Instr.wellFormed : Instr → Bool
  | .init dpin cpin gain => dpin.toNat ≤ 255 && cpin.toNat ≤ 255 && gain.toNat ≤ 255
  | .teardown => true
  | .isready => true
  | .waitready iv => iv.toNat ≤ 268435455
  | .read => true
  | .tryread => true
  | .setgain code => code.toNat ≤ 268435455
  | .pwrdown => true
  | .pwrup => true

/-- The mnemonics of R103. -/
inductive Mnemonic where
  | init | teardown | isready | waitready | read | tryread | setgain | pwrdown | pwrup
  deriving DecidableEq, Repr

/-- A command's mnemonic. -/
def Instr.mnemonic : Instr → Mnemonic
  | .init _ _ _ => .init
  | .teardown => .teardown
  | .isready => .isready
  | .waitready _ => .waitready
  | .read => .read
  | .tryread => .tryread
  | .setgain _ => .setgain
  | .pwrdown => .pwrdown
  | .pwrup => .pwrup

/-- One assembler line: a mnemonic and its operands as numbers, in the order of R113. -/
structure AsmLine where
  mnemonic : Mnemonic
  operands : List Nat
  deriving DecidableEq, Repr

/-- Why an assembler line is no command. -/
inductive AsmError where
  /-- The number of operands is not the one R113 gives the mnemonic. -/
  | operandCount
  /-- An operand does not fit its field (R102; D23: "gain codes in INIT that do not fit 8 bits cannot be written"). -/
  | operandRange
  deriving DecidableEq, Repr

/-- The command an assembler line stands for, or why it stands for none (R102, R113). -/
def AsmLine.check (l : AsmLine) : Except AsmError Instr :=
  match l.mnemonic, l.operands with
  | .init, [d, c, g] =>
    if d < 2 ^ 8 ∧ c < 2 ^ 8 ∧ g < 2 ^ 8 then .ok (.init (.ofNat 8 d) (.ofNat 8 c) (.ofNat 8 g))
    else .error .operandRange
  | .teardown, [] => .ok .teardown
  | .isready, [] => .ok .isready
  | .waitready, [iv] => if iv < 2 ^ 28 then .ok (.waitready (.ofNat 28 iv)) else .error .operandRange
  | .read, [] => .ok .read
  | .tryread, [] => .ok .tryread
  | .setgain, [code] => if code < 2 ^ 28 then .ok (.setgain (.ofNat 28 code)) else .error .operandRange
  | .pwrdown, [] => .ok .pwrdown
  | .pwrup, [] => .ok .pwrup
  | _, _ => .error .operandCount

end Sys2Proof
end

