-- ==== Sys2Proof/Decode.lean ====
section
/-! DEFINITION. The command word: its fields (R101, R102), the decoder, total and refusing by name (R105, R107), the
encoder (R101, R103), the rows of the opcode table as masks and matches (R105), and the table's numbering of bits. -/

namespace Sys2Proof

/-- The opcode of a command, bits [31:28] of its word (R103). -/
def Instr.opcode : Instr → BitVec 4
  | .init _ _ _ => 0x1
  | .teardown => 0x2
  | .isready => 0x3
  | .waitready _ => 0x4
  | .read => 0x5
  | .tryread => 0x6
  | .setgain _ => 0x7
  | .pwrdown => 0x8
  | .pwrup => 0x9

/-- Bits [31:28] of a word: the opcode (R101). -/
def opcodeField (w : Word) : BitVec 4 := w.extractLsb' 28 4

/-- Bits [27:0] of a word: the value of format `V`, all must-be-zero in format `Z` (R101). -/
def valueField (w : Word) : BitVec 28 := w.extractLsb' 0 28

/-- Bits [27:24] of a word: must be zero in format `I` (R101). -/
def mbzField (w : Word) : BitVec 4 := w.extractLsb' 24 4

/-- Bits [23:16] of a word: the gain of format `I` (R101). -/
def gainField (w : Word) : BitVec 8 := w.extractLsb' 16 8

/-- Bits [15:8] of a word: the clock line of format `I` (R101). -/
def cpinField (w : Word) : Pin := w.extractLsb' 8 8

/-- Bits [7:0] of a word: the data line of format `I` (R101). -/
def dpinField (w : Word) : Pin := w.extractLsb' 0 8

/-- Why a word is no command (R107). -/
inductive DecodeError where
  /-- The opcode is 0x0 or 0xA to 0xF. -/
  | reservedOpcode
  /-- A must-be-zero bit of the word's format is not zero. -/
  | mustBeZero
  deriving DecidableEq, Repr

/-- A command of format `Z`: every bit of [27:0] must be zero (R101). -/
def decodeZ (w : Word) (i : Instr) : Except DecodeError Instr :=
  if valueField w = 0 then .ok i else .error .mustBeZero

/-- The command a word stands for, or why it stands for none. Total; needs no state (R105, R107). -/
def decode (w : Word) : Except DecodeError Instr :=
  match (opcodeField w).toNat with
  | 1 => if mbzField w = 0 then .ok (.init (dpinField w) (cpinField w) (gainField w)) else .error .mustBeZero
  | 2 => decodeZ w .teardown
  | 3 => decodeZ w .isready
  | 4 => .ok (.waitready (valueField w))
  | 5 => decodeZ w .read
  | 6 => decodeZ w .tryread
  | 7 => .ok (.setgain (valueField w))
  | 8 => decodeZ w .pwrdown
  | 9 => decodeZ w .pwrup
  | _ => .error .reservedOpcode

/-- A word of format `Z` (R101). -/
def wordZ (opcode : BitVec 4) : Word := opcode ++ (0 : BitVec 28)

/-- A word of format `V` (R101). -/
def wordV (opcode : BitVec 4) (value : BitVec 28) : Word := opcode ++ value

/-- A word of format `I` (R101). -/
def wordI (opcode : BitVec 4) (gain : BitVec 8) (cpin dpin : Pin) : Word :=
  opcode ++ (0 : BitVec 4) ++ gain ++ cpin ++ dpin

/-- The word of a command (R101, R103). -/
def encode : Instr → Word
  | .init dpin cpin gain => wordI 0x1 gain cpin dpin
  | .teardown => wordZ 0x2
  | .isready => wordZ 0x3
  | .waitready iv => wordV 0x4 iv
  | .read => wordZ 0x5
  | .tryread => wordZ 0x6
  | .setgain code => wordV 0x7 code
  | .pwrdown => wordZ 0x8
  | .pwrup => wordZ 0x9

/-- The mask of a row of the opcode table, by format: `Z`, `I` and `V` (R105). -/
def Mnemonic.mask : Mnemonic → Word
  | .init => 0xFF000000
  | .teardown => 0xFFFFFFFF
  | .isready => 0xFFFFFFFF
  | .waitready => 0xF0000000
  | .read => 0xFFFFFFFF
  | .tryread => 0xFFFFFFFF
  | .setgain => 0xF0000000
  | .pwrdown => 0xFFFFFFFF
  | .pwrup => 0xFFFFFFFF

/-- The match value of a row of the opcode table (spec/opcode_table.json). -/
def Mnemonic.pattern : Mnemonic → Word
  | .init => 0x10000000
  | .teardown => 0x20000000
  | .isready => 0x30000000
  | .waitready => 0x40000000
  | .read => 0x50000000
  | .tryread => 0x60000000
  | .setgain => 0x70000000
  | .pwrdown => 0x80000000
  | .pwrup => 0x90000000

/-- A word matches a row of the table: `(word & mask) == match` (R105). -/
def Mnemonic.isRowOf (m : Mnemonic) (w : Word) : Prop := w &&& m.mask = m.pattern

/-- The command the decoder reads from a word whose bits are numbered as spec/opcode_table.json numbers them: one
32-bit word, bit 0 its least significant bit, every bit above `nbits` zero. -/
def decodeTableWord (nbits w : Nat) : Option Instr :=
  match decode (.ofNat 32 (w % 2 ^ nbits)) with
  | .ok i => some i
  | .error _ => none

end Sys2Proof
end

