-- ==== Sys2Proof/Machine/State.lean ====
section
/-! DEFINITION. The state as plain data: the engine's registers, exactly those of R20 (`Regs`), and what stands outside
the engine or is the model's record of it (`World`): the host's pins, the environment's answers, time and the history. -/

namespace Sys2Proof.Machine

/-- A handle the GPIO capability returned: opaque to the engine, told apart by its issue number (R30; log 5). -/
structure Handle where
  issue : Nat
  deriving DecidableEq, Repr

/-- `PHASE`, the sequencer's position: the twelve phases of R32 and no others (U15; log 12). -/
inductive Phase where
  /-- 0 `IDLE`: waiting for a command. -/
  | idle
  /-- 1 `POLL`: about to sample `DOUT` for readiness. -/
  | poll
  /-- 2 `POLLWAIT`: letting the poll interval pass after a not-ready sample. -/
  | pollwait
  /-- 3 `PRE`: ready seen, letting `T_RDY_SCK_MIN` pass before the first rising edge. -/
  | pre
  /-- 4 `SH_HIGH`: in the high half of a data pulse. -/
  | shHigh
  /-- 5 `SH_LOW`: in the low half of a data pulse. -/
  | shLow
  /-- 6 `GP_HIGH`: in the high half of a gain pulse. -/
  | gpHigh
  /-- 7 `GP_LOW`: in the low half of a gain pulse. -/
  | gpLow
  /-- 8 `PD_LOW`: power-down, clock driven low, before the rising edge. -/
  | pdLow
  /-- 9 `PD_HIGH`: power-down, clock held high for `T_PD_MIN`. -/
  | pdHigh
  /-- 10 `LOWHOLD`: clock driven low by INIT or PWRUP, letting `T_LOW_MIN` pass. -/
  | lowhold
  /-- 11 `RESP`: command finished, response offered to the host. -/
  | resp
  deriving DecidableEq, Repr

/-- `LIFE`, the life-cycle state (R29). The value 3 is never held (log 12). -/
inductive Life where
  /-- 0 `Uninit`: no handle is held. -/
  | uninit
  /-- 1 `Partial`: an INIT failed after the controller was opened. -/
  | partlyInit
  /-- 2 `Init`: all three handles are held. -/
  | init
  deriving DecidableEq, Repr

/-- `PWR`, the engine's record of the chip's power state (R28). -/
inductive Power where
  /-- 0 `Active`. -/
  | active
  /-- 1 `PoweredDown`. -/
  | poweredDown
  deriving DecidableEq, Repr

/-- `RSTAT`, the status of a response (R110). The codes 7 to 15 are never produced (U15; log 12). -/
inductive Status where
  /-- 0: the command did what its rule says. -/
  | ok
  /-- 1: the GPIO controller cannot be opened. -/
  | hardwareUnavailable
  /-- 2: one or both lines cannot be claimed. -/
  | lineUnavailable
  /-- 3: unsupported gain code. -/
  | invalidGain
  /-- 4: a non-blocking read found the chip not ready. -/
  | notReady
  /-- 5: the command is not allowed in the present `LIFE` or `PWR` state. -/
  | illegalState
  /-- 6: the word is not a command. -/
  | invalidCommand
  deriving DecidableEq, Repr

/-- Which line a `Release` event gives back (R68). -/
inductive LineName where
  | data
  | clk
  deriving DecidableEq, Repr

/-- The events of the history (R72). A `true` answer is `ok`, a `false` one `fail`; times are nanoseconds. -/
inductive Event where
  /-- `Open(r)` (R62). -/
  | opened (ok : Bool)
  /-- `ReqIn(pin, r)` (R64). -/
  | reqIn (pin : Pin) (ok : Bool)
  /-- `ReqOut(pin, level, r, t)` (R65). -/
  | reqOut (pin : Pin) (level : Level) (ok : Bool) (time : Nat)
  /-- `Get(level, t)` (R66). -/
  | get (level : Level) (time : Nat)
  /-- `Set(level, t)` (R67). -/
  | set (level : Level) (time : Nat)
  /-- `Release(which)` (R68). -/
  | released (which : LineName)
  /-- `Close` (R63). -/
  | closed
  /-- `Accept(word, t)` (R108). -/
  | accepted (word : Word) (time : Nat)
  /-- `Respond(status, data, t)` (R109). -/
  | respond (status : Status) (data : Word) (time : Nat)
  /-- `Reset(t)` (R280). -/
  | reset (time : Nat)
  deriving DecidableEq, Repr

/-- The engine's registers: exactly those of R20. -/
structure Regs where
  /-- `SHREG`, the shift register (R21). -/
  shreg : Raw
  /-- `BITCNT`, data pulses completed in the current READ (R22). -/
  bitcnt : BitVec 5
  /-- `GPCNT`, gain pulses still to send (R23). -/
  gpcnt : BitVec 2
  /-- `RESULT`, the last sample, signed (R24). -/
  result : Word
  /-- `DPIN`, the identifier of the data line (R25). -/
  dpin : Pin
  /-- `CPIN`, the identifier of the clock line (R26). -/
  cpin : Pin
  /-- `GAIN`, the gain setting as its pulse count (R27). -/
  gain : BitVec 2
  /-- `PWR`, the record of the chip's power state (R28). -/
  pwr : Power
  /-- `LIFE`, the life-cycle state (R29). -/
  life : Life
  /-- `HCTRL`, the controller handle where held (R30). -/
  hctrl : Option Handle
  /-- `HDATA`, the data line handle where held (R30). -/
  hdata : Option Handle
  /-- `HCLK`, the clock line handle where held (R30). -/
  hclk : Option Handle
  /-- `SCKQ`, the level last driven on `SCK` (R31). -/
  sckq : Level
  /-- `PHASE`, the sequencer's position (R32). -/
  phase : Phase
  /-- `CMDQ`, the opcode of the command in progress (R33). -/
  cmdq : BitVec 4
  /-- `POLLIV`, the poll spacing of the wait in progress, nanoseconds (R33). -/
  polliv : BitVec 38
  /-- `RSTAT`, the status of the response (R34). -/
  rstat : Status
  /-- `RDATA`, the datum of the response (R34). -/
  rdata : Word
  deriving DecidableEq, Repr

/-- What the host drives on its pins at one step (R108, R109, R280; log 1). -/
structure HostPins where
  /-- The reset input. -/
  rst : Bool
  /-- `cmd_valid` and `cmd[31:0]`: the presented word, if one is presented. -/
  cmd : Option Word
  /-- `rsp_ready`. -/
  rspReady : Bool
  deriving DecidableEq, Repr

/-- A run of coming answers: those listed are given first, in order, and then the free values, counted by `used`
(R92; log 3, log 4, log 6). -/
structure Script (α : Type) where
  /-- The answers still listed. -/
  listed : List α
  /-- How many answers were given since reset. -/
  used : Nat
  deriving DecidableEq, Repr

/-- What is not engine state (R39): the host's pins, the environment's answers, and the model's record (R72). -/
structure World where
  /-- What the host drives at each coming step; after the last entry it drives nothing (log 1). -/
  host : List HostPins
  /-- The answers of the coming `getValue` calls (R92 `GetScript`; log 3). -/
  gets : Script Level
  /-- The answers of the coming acquisition calls (R92 `AcqScript`; log 4). -/
  acqs : Script Bool
  /-- How much later than their lower bounds the coming time stamps fall (U14; log 6). -/
  slacks : Script Nat
  /-- How many handles the GPIO capability has issued (R62, R64, R65; log 5). -/
  handles : Nat
  /-- How many `rst` steps were taken (log 10). -/
  resets : Nat
  /-- The time stamp of the latest event or step, nanoseconds since reset (R11). -/
  now : Nat
  /-- `HIST`, newest event first (R72; log 11). -/
  hist : List Event
  deriving DecidableEq, Repr

/-- The state of the model: the engine's registers and the world they stand in. -/
structure State where
  regs : Regs
  world : World
  deriving DecidableEq, Repr

/-- Configurations for which R203 has no row. The spec says their registers are never so (R22, R27, R33), and no step
reaches one from a state in which they are not (obligation StepsNeverStop): these stops are the model's, not the
engine's, which has "no outcome of the kind fault with no next state" (R201; log 13). -/
inductive Fault where
  /-- Raised by the POLL step when `CMDQ` is none of WAITREADY, READ and TRYREAD. Safe: the machine stops where the
  spec gives no transition. -/
  | pollWithoutWait
  /-- Raised by the SH_LOW step when `BITCNT` is above 24. Safe: the machine stops where the spec gives no transition. -/
  | bitCountBeyondSample
  /-- Raised by the GP_LOW step when `GPCNT` is 0. Safe: the machine stops where the spec gives no transition. -/
  | gainCountExhausted
  deriving DecidableEq, Repr

/-- Reasons a command has no meaning in the model. -/
inductive Refusal where
  /-- Raised by `exec` alone, for a command whose meaning is not written: none. Safe: the machine stops. -/
  | notModelled (mnemonic : String)
  deriving DecidableEq, Repr

/-- The registers right after reset (R41). `PHASE`, `LIFE` and the three handles are as R41 gives them; every other
register is unspecified there and holds the value that log 9 names. -/
def Regs.reset : Regs where
  shreg := 0
  bitcnt := 0
  gpcnt := 0
  result := 0
  dpin := 0
  cpin := 0
  gain := 1
  pwr := .active
  life := .uninit
  hctrl := none
  hdata := none
  hclk := none
  sckq := 0
  phase := .idle
  cmdq := 0
  polliv := 0
  rstat := .ok
  rdata := 0

/-- The world right after reset: no event yet, time 0 (R11, R72), nothing listed for the host and the environment
(log 1, log 3, log 4, log 6). -/
def World.reset : World where
  host := []
  gets := ⟨[], 0⟩
  acqs := ⟨[], 0⟩
  slacks := ⟨[], 0⟩
  handles := 0
  resets := 0
  now := 0
  hist := []

/-- The machine right after reset (R41). -/
def State.reset : State := ⟨Regs.reset, World.reset⟩

end Sys2Proof.Machine
end

