-- ==== Sys2Proof/Machine/Operands.lean ====
section
/-! DEFINITION. The operand forms of the commands and all the arithmetic the engine does (R102, R104, R110, R169). -/

namespace Sys2Proof.Machine

/-- `pulses(c)`: the pulse count of a supported gain code, none for an unsupported one; the comparison is on the whole
operand (R104, R182). -/
def pulses (c : Nat) : Option (BitVec 2) :=
  if c = 128 then some 1 else if c = 32 then some 2 else if c = 64 then some 3 else none

/-- WAITREADY's poll spacing: microseconds to nanoseconds, exact in 38 bits (R102, R169 (f)). -/
def pollNanos (iv : BitVec 28) : BitVec 38 := iv.setWidth 38 * 1000

/-- One bit shifted in at the bottom: `{SHREG[22:0], b}` (R163, R169 (a)). -/
def shiftIn (r : Raw) (b : Level) : Raw := r.extractLsb' 0 23 ++ b

/-- `sext_32` (R8, R164). -/
def sext32 (r : Raw) : Word := r.signExtend 32

/-- ISREADY's datum: 1 if the line reads low, else 0 (R151). -/
def readyDatum (v : Level) : Word := if v = 0 then 1 else 0

/-- The 4-bit code of a status (R110). -/
def Status.code : Status → BitVec 4
  | .ok => 0x0
  | .hardwareUnavailable => 0x1
  | .lineUnavailable => 0x2
  | .invalidGain => 0x3
  | .notReady => 0x4
  | .illegalState => 0x5
  | .invalidCommand => 0x6

/-- The status a code names; the seven codes of R110 in turn. -/
def Status.ofCode (n : Nat) : Status :=
  match n with
  | 0 => .ok
  | 1 => .hardwareUnavailable
  | 2 => .lineUnavailable
  | 3 => .invalidGain
  | 4 => .notReady
  | 5 => .illegalState
  | _ => .invalidCommand

/-- The number of a phase (R32). -/
def Phase.number : Phase → BitVec 4
  | .idle => 0
  | .poll => 1
  | .pollwait => 2
  | .pre => 3
  | .shHigh => 4
  | .shLow => 5
  | .gpHigh => 6
  | .gpLow => 7
  | .pdLow => 8
  | .pdHigh => 9
  | .lowhold => 10
  | .resp => 11

/-- The number of a life-cycle state (R29). -/
def Life.number : Life → BitVec 2
  | .uninit => 0
  | .partlyInit => 1
  | .init => 2

/-- The bit of a power state (R28). -/
def Power.bit : Power → BitVec 1
  | .active => 0
  | .poweredDown => 1

/-- The opcodes by name, as `CMDQ` holds them (R33, R103). -/
def opInit : BitVec 4 := 0x1
/-- TEARDOWN's opcode. -/
def opTeardown : BitVec 4 := 0x2
/-- ISREADY's opcode. -/
def opIsready : BitVec 4 := 0x3
/-- WAITREADY's opcode. -/
def opWaitready : BitVec 4 := 0x4
/-- READ's opcode. -/
def opRead : BitVec 4 := 0x5
/-- TRYREAD's opcode. -/
def opTryread : BitVec 4 := 0x6
/-- SETGAIN's opcode. -/
def opSetgain : BitVec 4 := 0x7
/-- PWRDOWN's opcode. -/
def opPwrdown : BitVec 4 := 0x8
/-- PWRUP's opcode. -/
def opPwrup : BitVec 4 := 0x9

end Sys2Proof.Machine
end

