-- ==== Sys2Proof/Machine/Flags.lean ====
section
/-! DEFINITION. The engine has no flags (R35). What stands in their place is derived from the registers: the status bit
BUSY and the levels the engine drives on its ports and pins (R35, R100, R108, R109). -/

namespace Sys2Proof.Machine

/-- `BUSY := (PHASE != IDLE)` (R35). -/
def State.busy (s : State) : Bool := s.regs.phase != .idle

/-- `cmd_ready`, the command port's output (R108). -/
def State.cmdReady (s : State) : Bool := !s.busy

/-- `rsp_valid = (PHASE == RESP)` (R109). -/
def State.rspValid (s : State) : Bool := s.regs.phase == .resp

/-- `rsp_status[3:0] = RSTAT` (R109). -/
def State.rspStatus (s : State) : BitVec 4 := s.regs.rstat.code

/-- `rsp_data[31:0] = RDATA` (R109). -/
def State.rspData (s : State) : Word := s.regs.rdata

/-- The `SCK` pin: driven at level `SCKQ` while `HCLK` is held, not driven otherwise (R100, R31). -/
def State.sckPin (s : State) : Option Level := if s.regs.hclk.isSome then some s.regs.sckq else none

end Sys2Proof.Machine
end

