-- ==== Sys2Proof/Config.lean ====
section
/-! DEFINITION. What an implementation or the world fixes and the spec leaves open. Every constant here is opaque:
nothing in Lean can evaluate it or prove a value of it. The parameters of R6 that these feed, with the orderings the
spec demands of them, are in Sys2Proof/Machine/Timing.lean. -/

namespace Sys2Proof.Config

/-- The level the n-th `getValue` of the run returns where no script lists it (R66, R84, U5; log 3). -/
opaque freeLevel : Nat → Level

/-- Whether the n-th acquisition call is granted where no script lists it (R62, R64, R65, R84, U1; log 4). -/
opaque freeGrant : Nat → Bool

/-- How much later than its lower bound the n-th time stamp falls where no script lists it, in nanoseconds (R70, U14; log 6). -/
opaque freeSlack : Nat → Nat

/-- What the open parameter `T_HIGH_MIN` is made from (R6, D11, U13; log 7). -/
opaque freeHighMin : Nat

/-- What the open parameter `T_HIGH_MAX` is made from (R6, D12, U13; log 7). -/
opaque freeHighMax : Nat

/-- What the open parameter `T_LOW_MIN` is made from (R6, D11, U13; log 7). -/
opaque freeLowMin : Nat

/-- The open parameter `T_RDY_SCK_MIN`, in nanoseconds (R6, D14, U13; log 7). -/
opaque freeRdySckMin : Nat

/-- What the open parameter `T_POLL_READ` is made from (R6, D13, U13; log 19). -/
opaque freePollRead : Nat

/-! What the registers that R41 leaves unspecified hold after the n-th `rst` step (U12; log 10). -/

/-- `SHREG` after the n-th `rst` step. -/
opaque resetShreg : Nat → Raw

/-- What `BITCNT` after the n-th `rst` step is made from. -/
opaque resetBitcnt : Nat → Nat

/-- `GPCNT` after the n-th `rst` step. -/
opaque resetGpcnt : Nat → BitVec 2

/-- The raw value whose sign extension `RESULT` holds after the n-th `rst` step. -/
opaque resetResult : Nat → Raw

/-- `DPIN` after the n-th `rst` step. -/
opaque resetDpin : Nat → Pin

/-- `CPIN` after the n-th `rst` step. -/
opaque resetCpin : Nat → Pin

/-- What `GAIN` after the n-th `rst` step is made from. -/
opaque resetGain : Nat → Nat

/-- Whether `PWR` holds PoweredDown after the n-th `rst` step. -/
opaque resetPwr : Nat → Bool

/-- `SCKQ` after the n-th `rst` step. -/
opaque resetSckq : Nat → Level

/-- `CMDQ` after the n-th `rst` step. -/
opaque resetCmdq : Nat → BitVec 4

/-- What `POLLIV` after the n-th `rst` step is made from. -/
opaque resetPolliv : Nat → Nat

/-- What `RSTAT` after the n-th `rst` step is made from. -/
opaque resetRstat : Nat → Nat

/-- `RDATA` after the n-th `rst` step. -/
opaque resetRdata : Nat → Word

end Sys2Proof.Config
end

