-- ==== Sys2Proof/Machine/Timing.lean ====
section
/-! DEFINITION. The timing parameters of R6 and the passing of time (R70, R71, R202). The open parameters are made from
opaque constants so that exactly the orderings the spec demands hold and nothing more is known (log 7, log 19). -/

namespace Sys2Proof.Machine

/-- `T_PD_MIN`, the power-down hold: 60 microseconds (R6). -/
def tPdMin : Nat := 60000

/-- `T_HIGH_MIN`: open; any value with `0 < T_HIGH_MIN < T_PD_MIN` (R6; log 7). -/
def tHighMin : Nat := 1 + Config.freeHighMin % (tPdMin - 1)

/-- `T_HIGH_MAX`: open; any value with `T_HIGH_MIN <= T_HIGH_MAX < T_PD_MIN` (R6, D12; log 7). -/
def tHighMax : Nat := tHighMin + Config.freeHighMax % (tPdMin - tHighMin)

/-- `T_LOW_MIN`: open; any value with `0 < T_LOW_MIN` (R6; log 7). -/
def tLowMin : Nat := 1 + Config.freeLowMin

/-- `T_RDY_SCK_MIN`: open; any value (R6, D14; log 7). -/
def tRdySckMin : Nat := Config.freeRdySckMin

/-- The largest value `POLLIV` takes (R20, R33). -/
def pollivMax : Nat := 268435455000

/-- `T_POLL_READ`: open; any value `POLLIV` may hold (R6, D13, R20; log 19). -/
def tPollRead : BitVec 38 := .ofNat 38 (Config.freePollRead % (pollivMax + 1))

/-- The answer a script gives next: the first listed, else the free value of that number (R92; log 3, log 4, log 6). -/
def Script.value {α : Type} (free : Nat → α) (c : Script α) : α := c.listed.headD (free c.used)

/-- The script after one answer was given. -/
def Script.rest {α : Type} (c : Script α) : Script α := ⟨c.listed.tail, c.used + 1⟩

/-- The time stamp of an event, if it carries one (R72). -/
def Event.time : Event → Option Nat
  | .opened _ => none
  | .reqIn _ _ => none
  | .reqOut _ _ _ t => some t
  | .get _ t => some t
  | .set _ t => some t
  | .released _ => none
  | .closed => none
  | .accepted _ t => some t
  | .respond _ _ t => some t
  | .reset t => some t

/-- The time stamp of a wire event: `Get`, `Set` and a successful `ReqOut`, and no other (R72). -/
def Event.wireTime : Event → Option Nat
  | .opened _ => none
  | .reqIn _ _ => none
  | .reqOut _ _ ok t => if ok then some t else none
  | .get _ t => some t
  | .set _ t => some t
  | .released _ => none
  | .closed => none
  | .accepted _ _ => none
  | .respond _ _ _ => none
  | .reset _ => none

/-- The time stamp of the latest wire event of a history kept newest first (R72 `LASTT`). -/
def lastWireTime (hist : List Event) : Option Nat := hist.findSome? Event.wireTime

/-- `LASTT` (R72): none when no wire event has happened. -/
def State.lastT (s : State) : Option Nat := lastWireTime s.world.hist

/-- The slack of the next time stamp (U14; log 6). -/
def State.slack (s : State) : Nat := s.world.slacks.value Config.freeSlack

/-- The state at a later time, one slack used. -/
def State.atTime (t : Nat) (s : State) : State :=
  { s with world := { s.world with now := t, slacks := s.world.slacks.rest } }

/-- Time passes, by any amount: a step with no guard (R73, U14). -/
def State.later (s : State) : State := s.atTime (s.world.now + s.slack)

/-- The least time at which a guard `now >= LASTT + d` holds and time has not gone back; a guard on an undefined
`LASTT` is true (R72, R73, R202). -/
def State.earliest (d : Nat) (s : State) : Nat :=
  match s.lastT with
  | none => s.world.now
  | some t => max s.world.now (t + d)

/-- `delay(d)`: the step happens at least `d` after the latest wire event, with no upper bound (R70, R202). -/
def State.delay (d : Nat) (s : State) : State := s.atTime (s.earliest d + s.slack)

/-- The hold of a high phase whose rising edge was at `edge`: the step happens at least `T_HIGH_MIN` and at most
`T_HIGH_MAX` after the edge (R71, R202, D12). With no edge on record both guards are true (R72). -/
def State.holdHigh (edge : Option Nat) (s : State) : State :=
  match edge with
  | none => s.later
  | some t =>
    let first := max s.world.now (t + tHighMin)
    s.atTime (first + min s.slack (t + tHighMax - first))

end Sys2Proof.Machine
end

