-- ==== Sys2Proof/Machine/Ops.lean ====
section
/-! DEFINITION. The named operations: the calls of the GPIO capability (R60 to R69), raising an exception and returning
from one (R246, R255), and the reset step (R280). Every call appends exactly one event (R60). -/

namespace Sys2Proof.Machine

/-- Appends an event to the history (R72). -/
def State.record (e : Event) (s : State) : State :=
  { s with world := { s.world with hist := e :: s.world.hist } }

/-- `x[PHASE] <- p`: the sequencer's next phase (R9). -/
def State.goto (p : Phase) (s : State) : State := { s with regs := { s.regs with phase := p } }

/-- `x[CMDQ] <- op`: the opcode of an accepted word (R204). -/
def State.latch (op : BitVec 4) (s : State) : State := { s with regs := { s.regs with cmdq := op } }

/-- The level the next `getValue` returns (R66, R84; log 3). -/
def State.dout (s : State) : Level := s.world.gets.value Config.freeLevel

/-- The state after `MemRead(DOUT, 1)`, which returned `s.dout`: the answer is used and `Get(level, t)` appended; no
register changes (R66). -/
def State.memRead (s : State) : State :=
  { s with world := { s.world with
      gets := s.world.gets.rest
      hist := .get s.dout s.world.now :: s.world.hist } }

/-- The state after `MemWrite(SCK, 1, v)`: `SCKQ <- v` and `Set(v, t)` appended, also when the level does not change
(R67). -/
def State.memWrite (v : Level) (s : State) : State :=
  { regs := { s.regs with sckq := v }
    world := { s.world with hist := .set v s.world.now :: s.world.hist } }

/-- The engine already holds a handle for line `pin` (R64; log 20). -/
def State.holdsLine (pin : Pin) (s : State) : Bool :=
  (s.regs.hdata.isSome && s.regs.dpin == pin) || (s.regs.hclk.isSome && s.regs.cpin == pin)

/-- Whether the environment grants the next acquisition call, a call that R64's constraint does not bar (R84; log 4). -/
def State.grants (barred : Bool) (s : State) : Bool := s.world.acqs.value Config.freeGrant && !barred

/-- The handle an acquisition call gets: a fresh one if granted (R62, R64, R65; log 5). -/
def State.handle (barred : Bool) (s : State) : Option Handle :=
  if s.grants barred then some ⟨s.world.handles⟩ else none

/-- The state after an acquisition call: one answer is used, also by a barred call, and the call's event appended with
the answer (R62, R64, R65, R92; log 4). -/
def State.acquired (barred : Bool) (event : Bool → Event) (s : State) : State :=
  { s with world := { s.world with
      acqs := s.world.acqs.rest
      handles := s.world.handles + (s.grants barred).toNat
      hist := event (s.grants barred) :: s.world.hist } }

/-- The handle `openController()` returns (R62). -/
def State.openController (s : State) : Option Handle := s.handle false

/-- The state after `openController()`: `Open(r)` appended (R62). -/
def State.openedController (s : State) : State := s.acquired false .opened

/-- The handle `requestInput(pin)` returns (R64). -/
def State.requestInput (pin : Pin) (s : State) : Option Handle := s.handle (s.holdsLine pin)

/-- The state after `requestInput(pin)`: `ReqIn(pin, r)` appended (R64). -/
def State.requestedInput (pin : Pin) (s : State) : State := s.acquired (s.holdsLine pin) (.reqIn pin)

/-- The handle `requestOutput(pin, level)` returns (R65). -/
def State.requestOutput (pin : Pin) (s : State) : Option Handle := s.handle (s.holdsLine pin)

/-- The state after `requestOutput(pin, level)`: `ReqOut(pin, level, r, t)` appended (R65). -/
def State.requestedOutput (pin : Pin) (level : Level) (s : State) : State :=
  s.acquired (s.holdsLine pin) fun ok => .reqOut pin level ok s.world.now

/-- `if x[HCLK] is held: release(x[HCLK].h); x[HCLK] <- not held` (R68, R137 line 1). -/
def State.releaseClk (s : State) : State :=
  if s.regs.hclk.isSome then State.record (.released .clk) { s with regs := { s.regs with hclk := none } } else s

/-- `if x[HDATA] is held: release(x[HDATA].h); x[HDATA] <- not held` (R68, R137 line 2). -/
def State.releaseData (s : State) : State :=
  if s.regs.hdata.isSome then State.record (.released .data) { s with regs := { s.regs with hdata := none } } else s

/-- `if x[HCTRL] is held: closeController(x[HCTRL].h); x[HCTRL] <- not held` (R63, R137 line 3). -/
def State.closeController (s : State) : State :=
  if s.regs.hctrl.isSome then State.record .closed { s with regs := { s.regs with hctrl := none } } else s

/-- The command ends: the response registers are written, the phase is `RESP`, `Respond` is appended (R109, R203). -/
def State.respond (status : Status) (data : Word) (s : State) : State :=
  { regs := { s.regs with rstat := status, rdata := data, phase := .resp }
    world := { s.world with hist := .respond status data s.world.now :: s.world.hist } }

/-- Taking an exception, `raise S`: `RSTAT <- S`, `RDATA <- 0`, `PHASE <- RESP`, `Respond(S, 0, now)` appended, and
nothing else (R246, R240). -/
def State.raise (status : Status) (s : State) : State := s.respond status 0

/-- The return from an exception and from a success alike: the host takes the response and the engine is in `IDLE`
(R255, R203 T11). -/
def State.takeResponse (s : State) : State := s.goto .idle

/-- The registers after the n-th `rst` step: `PHASE`, `LIFE` and the handles as R280 says; every other register free
within the values R22, R24, R27 and R33 say it can hold (R41, U12; log 10). -/
def Regs.afterRst (n : Nat) : Regs where
  shreg := Config.resetShreg n
  bitcnt := .ofNat 5 (Config.resetBitcnt n % 25)
  gpcnt := Config.resetGpcnt n
  result := sext32 (Config.resetResult n)
  dpin := Config.resetDpin n
  cpin := Config.resetCpin n
  gain := .ofNat 2 (1 + Config.resetGain n % 3)
  pwr := if Config.resetPwr n then .poweredDown else .active
  life := .uninit
  hctrl := none
  hdata := none
  hclk := none
  sckq := Config.resetSckq n
  phase := .idle
  cmdq := Config.resetCmdq n
  polliv := .ofNat 38 (Config.resetPolliv n % (pollivMax + 1))
  rstat := Status.ofCode (Config.resetRstat n % 7)
  rdata := Config.resetRdata n

/-- The reset step T12: at any time and in any phase, `Reset(t)` is appended, no release or close is called, and no
response is given (R280, R281). The history and time go on (log 11). -/
def State.rstStep (s : State) : State :=
  let s := s.later
  { regs := Regs.afterRst s.world.resets
    world := { s.world with
      resets := s.world.resets + 1
      hist := .reset s.world.now :: s.world.hist } }

end Sys2Proof.Machine
end

