-- ==== Sys2Proof/Machine/Ready.lean ====
section
/-! DEFINITION. The ready-detect commands ISREADY (R151, R152) and WAITREADY (R153 to R156), as their accept steps (R204). -/

namespace Sys2Proof.Machine

/-- The check of every command but INIT and TEARDOWN: `require x[LIFE] == Init else IllegalState` (R244). -/
def State.requireInit (s : State) (body : State → State) : State :=
  if s.regs.life = .init then body s else s.raise .illegalState

/-- `ISREADY`: one `Get`, at or after the accept; the datum says whether the line read low (R151). -/
def execIsready (s : State) : Host.Outcome State Fault Refusal :=
  .next ((s.latch opIsready).requireInit fun s => s.later.memRead.respond .ok (readyDatum s.later.dout))

/-- `WAITREADY iv`: `POLLIV <- iv * 1000`, on to `POLL` (R153, R154). -/
def execWaitready (iv : BitVec 28) (s : State) : Host.Outcome State Fault Refusal :=
  .next ((s.latch opWaitready).requireInit fun s =>
    State.goto .poll { s with regs := { s.regs with polliv := pollNanos iv } })

end Sys2Proof.Machine
end

