-- ==== Sys2Proof/Machine/Gain.lean ====
section
/-! DEFINITION. The gain command SETGAIN (R181 to R184), in one step (R204). -/

namespace Sys2Proof.Machine

/-- `SETGAIN code`: `GAIN <- pulses(code)`, or `InvalidGain` and nothing changed (R181, R182). -/
def execSetgain (code : BitVec 28) (s : State) : Host.Outcome State Fault Refusal :=
  .next ((s.latch opSetgain).requireInit fun s =>
    match pulses code.toNat with
    | none => s.raise .invalidGain
    | some p => State.respond .ok 0 { s with regs := { s.regs with gain := p } })

end Sys2Proof.Machine
end

