-- ==== Sys2Proof/Machine/Lifecycle.lean ====
section
/-! DEFINITION. The life-cycle commands INIT (R131 to R136) and TEARDOWN (R137 to R139), as their accept steps (R204). -/

namespace Sys2Proof.Machine

/-- INIT, lines 10 to 13: claim the clock line as an output driven low. The request is time-stamped at or after the
accept (R204); success enters `LOWHOLD` (R131, R136). -/
def State.claimClock (s : State) : State :=
  let s := s.later
  let s' := s.requestedOutput s.regs.cpin 0
  match s.requestOutput s.regs.cpin with
  | none => s'.raise .lineUnavailable
  | some h =>
    State.goto .lowhold
      { s' with regs := { s'.regs with hclk := some h, sckq := 0, pwr := .active, life := .init } }

/-- INIT, lines 7 to 9: claim the data line as an input (R131). -/
def State.claimData (s : State) : State :=
  let s' := s.requestedInput s.regs.dpin
  match s.requestInput s.regs.dpin with
  | none => s'.raise .lineUnavailable
  | some h => State.claimClock { s' with regs := { s'.regs with hdata := some h } }

/-- INIT, lines 4 to 6: open the controller (R131). -/
def State.claimController (s : State) : State :=
  let s' := s.openedController
  match s.openController with
  | none => s'.raise .hardwareUnavailable
  | some h => State.claimData { s' with regs := { s'.regs with hctrl := some h, life := .partlyInit } }

/-- `INIT dpin, cpin, gain`: state check, gain check, then line 3 and the acquisitions (R131, R132, R135). -/
def execInit (dpin cpin : Pin) (gain : BitVec 8) (s : State) : Host.Outcome State Fault Refusal :=
  let s := s.latch opInit
  if s.regs.life ≠ .uninit then .next (s.raise .illegalState)
  else match pulses gain.toNat with
    | none => .next (s.raise .invalidGain)
    | some p => .next (State.claimController { s with regs := { s.regs with dpin := dpin, cpin := cpin, gain := p } })

/-- `TEARDOWN`: release what is held, clock, data, controller; always `OK` (R137). -/
def execTeardown (s : State) : Host.Outcome State Fault Refusal :=
  let s := (s.latch opTeardown).releaseClk.releaseData.closeController
  .next (State.respond .ok 0 { s with regs := { s.regs with life := .uninit } })

end Sys2Proof.Machine
end

