-- ==== Sys2Proof/Machine/Power.lean ====
section
/-! DEFINITION. The power commands PWRDOWN (R191 to R193) and PWRUP (R194, R195), as their accept steps (R204). -/

namespace Sys2Proof.Machine

/-- `PWRDOWN`: the clock is driven low, also when it is low already, on to `PD_LOW` (R191, R192). -/
def execPwrdown (s : State) : Host.Outcome State Fault Refusal :=
  .next ((s.latch opPwrdown).requireInit fun s => (s.memWrite 0).goto .pdLow)

/-- `PWRUP`: the clock is driven low and the chip recorded as active, on to `LOWHOLD` (R194, R195). -/
def execPwrup (s : State) : Host.Outcome State Fault Refusal :=
  .next ((s.latch opPwrup).requireInit fun s =>
    let s := s.memWrite 0
    State.goto .lowhold { s with regs := { s.regs with pwr := .active } })

end Sys2Proof.Machine
end

