-- ==== Sys2Proof/Machine/Read.lean ====
section
/-! DEFINITION. The sample commands READ (R161 to R167) and TRYREAD (R168), as their accept steps (R204). The wait, the
shift and the gain pulses are the internal steps of Sys2Proof/Machine/Sequencer.lean. -/

namespace Sys2Proof.Machine

/-- The second check of the two reads: `require x[PWR] == Active else IllegalState` (R161, R168, R193). -/
def State.requireActive (s : State) (body : State → State) : State :=
  if s.regs.pwr = .active then body s else s.raise .illegalState

/-- `READ`: `POLLIV <- T_POLL_READ`, on to `POLL` (R161, R162). -/
def execRead (s : State) : Host.Outcome State Fault Refusal :=
  .next ((s.latch opRead).requireInit fun s => s.requireActive fun s =>
    State.goto .poll { s with regs := { s.regs with polliv := tPollRead } })

/-- `TRYREAD`: on to `POLL` (R168). -/
def execTryread (s : State) : Host.Outcome State Fault Refusal :=
  .next ((s.latch opTryread).requireInit fun s => s.requireActive fun s => s.goto .poll)

end Sys2Proof.Machine
end

