-- ==== Sys2Proof/Machine/Dispatch.lean ====
section
/-! DEFINITION. The meaning of every command, one arm each (R103, R204). -/

namespace Sys2Proof.Machine

def exec (i : Instr) (s : State) : Host.Outcome State Fault Refusal :=
  match i with
  | .init dpin cpin gain => Sys2Proof.Machine.execInit dpin cpin gain s
  | .teardown => Sys2Proof.Machine.execTeardown s
  | .isready => Sys2Proof.Machine.execIsready s
  | .waitready iv => Sys2Proof.Machine.execWaitready iv s
  | .read => Sys2Proof.Machine.execRead s
  | .tryread => Sys2Proof.Machine.execTryread s
  | .setgain code => Sys2Proof.Machine.execSetgain code s
  | .pwrdown => Sys2Proof.Machine.execPwrdown s
  | .pwrup => Sys2Proof.Machine.execPwrup s

end Sys2Proof.Machine
end

