-- ==== Sys2Proof/Machine/Sequencer.lean ====
section
/-! DEFINITION. The internal steps of the sequencer, one definition per phase (R203, T1 to T10), and the accept of a
word from the command port (R108, R204). -/

namespace Sys2Proof.Machine

/-- What the host drives at this step; nothing when its list has ended (log 1). -/
def State.pins (s : State) : HostPins := s.world.host.headD ⟨false, none, false⟩

/-- The state with this step's host pins used. -/
def State.pinsUsed (s : State) : State :=
  { s with world := { s.world with host := s.world.host.tail } }

/-- The accept of word `w`: at any time not before the last, `Accept(w, t)` is appended (R108, R204). -/
def State.accept (w : Word) (s : State) : State := s.later.record (.accepted w s.later.world.now)

/-- A word that is no command: `CMDQ` takes its opcode and the answer is `InvalidCommand` (R107, R204, R247; log 14). -/
def State.rejectWord (w : Word) (s : State) : State := (s.latch (opcodeField w)).raise .invalidCommand

/-- T1, `POLL`: one `Get`, and four cases by the level and the command (R203 T1a to T1d). -/
def stepPoll (s : State) : Host.Outcome State Fault Refusal :=
  let s := s.later
  let v := s.dout
  let s := s.memRead
  if s.regs.cmdq = opWaitready then
    if v = 0 then .next (s.respond .ok 0) else .next (s.goto .pollwait)
  else if s.regs.cmdq = opRead then
    if v = 0 then .next (s.goto .pre) else .next (s.goto .pollwait)
  else if s.regs.cmdq = opTryread then
    if v = 0 then .next (s.goto .pre) else .next (s.raise .notReady)
  else .fault .pollWithoutWait

/-- T2, `POLLWAIT`: the poll interval passes (R203 T2). -/
def stepPollwait (s : State) : Host.Outcome State Fault Refusal :=
  .next ((s.delay s.regs.polliv.toNat).goto .poll)

/-- T3, `PRE`: the shift register and the bit count are cleared and the first rising edge made (R203 T3). -/
def stepPre (s : State) : Host.Outcome State Fault Refusal :=
  let s := s.delay tRdySckMin
  .next ((State.memWrite 1 { s with regs := { s.regs with shreg := 0, bitcnt := 0 } }).goto .shHigh)

/-- T4, `SH_HIGH`: after the hold the line is sampled and the bit shifted in, and then, still within the bound on the
high phase, the falling edge made (R203 T4, R163). -/
def stepShHigh (s : State) : Host.Outcome State Fault Refusal :=
  let edge := s.lastT
  let s := s.holdHigh edge
  let b := s.dout
  let s := s.memRead
  let s := { s with regs := { s.regs with shreg := shiftIn s.regs.shreg b, bitcnt := s.regs.bitcnt + 1 } }
  let s := s.holdHigh edge
  .next ((s.memWrite 0).goto .shLow)

/-- T5, `SH_LOW`: the next data pulse begins; after the 24th the result is formed, the gain pulses counted in, and the
first of them begins (R203 T5a, T5b, R164, R165). -/
def stepShLow (s : State) : Host.Outcome State Fault Refusal :=
  let s := s.delay tLowMin
  if s.regs.bitcnt < 24 then .next ((s.memWrite 1).goto .shHigh)
  else if s.regs.bitcnt = 24 then
    let s := { s with regs := { s.regs with result := sext32 s.regs.shreg, gpcnt := s.regs.gain } }
    .next ((s.memWrite 1).goto .gpHigh)
  else .fault .bitCountBeyondSample

/-- T6, `GP_HIGH`: after the hold, the falling edge, with no sample (R203 T6). -/
def stepGpHigh (s : State) : Host.Outcome State Fault Refusal :=
  let s := s.holdHigh s.lastT
  .next ((s.memWrite 0).goto .gpLow)

/-- T7, `GP_LOW`: the gain pulse is complete; another begins, or the read ends with its result (R203 T7a, T7b). -/
def stepGpLow (s : State) : Host.Outcome State Fault Refusal :=
  let s := s.delay tLowMin
  if s.regs.gpcnt > 1 then
    let s := { s with regs := { s.regs with gpcnt := s.regs.gpcnt - 1 } }
    .next ((s.memWrite 1).goto .gpHigh)
  else if s.regs.gpcnt = 1 then
    let s := { s with regs := { s.regs with gpcnt := 0 } }
    .next (s.respond .ok s.regs.result)
  else .fault .gainCountExhausted

/-- T8, `PD_LOW`: the rising edge of the power-down (R203 T8). -/
def stepPdLow (s : State) : Host.Outcome State Fault Refusal :=
  .next (((s.delay tLowMin).memWrite 1).goto .pdHigh)

/-- T9, `PD_HIGH`: the clock was high for `T_PD_MIN`; the chip is recorded as powered down (R203 T9). -/
def stepPdHigh (s : State) : Host.Outcome State Fault Refusal :=
  let s := s.delay tPdMin
  .next (State.respond .ok 0 { s with regs := { s.regs with pwr := .poweredDown } })

/-- T10, `LOWHOLD`: the low hold of INIT and PWRUP has passed (R203 T10). -/
def stepLowhold (s : State) : Host.Outcome State Fault Refusal :=
  .next ((s.delay tLowMin).respond .ok 0)

end Sys2Proof.Machine
end

