-- ==== Sys2Proof/Machine/Engine.lean ====
section
/-! DEFINITION. The engine's step under given host pins: the step of the phase, and reset before everything (R200, R253). -/

namespace Sys2Proof.Machine

/-- What the engine does with a word it accepts: the command's meaning, or the answer to a word that is no command (R204). -/
def runWord (w : Word) (s : State) : Host.Outcome State Fault Refusal :=
  match decode w with
  | .ok i => exec i (s.accept w)
  | .error _ => .next ((s.accept w).rejectWord w)

/-- `IDLE`: a presented word is accepted and run; with none presented the engine waits (R204, R206; log 15). -/
def stepIdle (pins : HostPins) (s : State) : Host.Outcome State Fault Refusal :=
  match pins.cmd with
  | none => .next s
  | some w => runWord w s

/-- T11, `RESP`: the host takes the response; until it does, the engine waits (R203 T11, R300; log 15). -/
def stepResp (pins : HostPins) (s : State) : Host.Outcome State Fault Refusal :=
  if pins.rspReady then .next s.takeResponse else .next s

/-- The step of the phase the engine is in (R200, R203, R204). -/
def phaseStep (pins : HostPins) (s : State) : Host.Outcome State Fault Refusal :=
  match s.regs.phase with
  | .idle => stepIdle pins s
  | .poll => stepPoll s
  | .pollwait => stepPollwait s
  | .pre => stepPre s
  | .shHigh => stepShHigh s
  | .shLow => stepShLow s
  | .gpHigh => stepGpHigh s
  | .gpLow => stepGpLow s
  | .pdLow => stepPdLow s
  | .pdHigh => stepPdHigh s
  | .lowhold => stepLowhold s
  | .resp => stepResp pins s

/-- One step of the engine: an asserted `rst` wins over everything (R253, R203 T12). -/
def engineStep (pins : HostPins) (s : State) : Host.Outcome State Fault Refusal :=
  if pins.rst then .next s.rstStep else phaseStep pins s

/-- The state in which the host presents the word `w` and the engine is ready for it: the phase is `IDLE`, where alone
a word is accepted, and the coming host entry holds the word and no `rst` (R108; log 2). -/
def State.presenting (w : Word) (s : State) : State :=
  { regs := { s.regs with phase := .idle }
    world := { s.world with host := { s.pins with rst := false, cmd := some w } :: s.world.host.tail } }

end Sys2Proof.Machine
end

