-- ==== Sys2Proof/Machine/Step.lean ====
section
/-! DEFINITION. One step of the machine, and the placing of a word where the next step accepts it. -/

namespace Sys2Proof.Machine

/-- One step: the host's pins are sampled once and the engine steps under them (R200; log 1, log 22). -/
def step (s : State) : Host.Outcome State Fault Refusal := engineStep s.pins s.pinsUsed

/-- The state in which the next step accepts and runs the word `w`, its bits above `nbits` zero (log 2). -/
def State.withFetchWord (s : State) (nbits w : Nat) : State := s.presenting (.ofNat 32 (w % 2 ^ nbits))

end Sys2Proof.Machine
end

