-- ==== Sys2Proof/Safety.lean ====
section
/-! DEFINITION. What counts as a good state and a good history, in the terms the statements use: the invariants of the
registers (R38), the order of time (R73), the gap before every rising edge (R291), the bounds on a high phase (R292),
the ledger of what is acquired and released (R138), the shape of a frame (R111, R166), and the assumptions about the
chip and the host that a claim may take as premises (R85 to R92, R296). -/

namespace Sys2Proof.Machine

/-! ## The registers -/

/-- R38 items 1 to 3: which handles are held in which life-cycle state. -/
def Regs.HandlesOk (r : Regs) : Prop :=
  match r.life with
  | .uninit => r.hctrl = none ∧ r.hdata = none ∧ r.hclk = none
  | .partlyInit => r.hctrl.isSome = true ∧ r.hclk = none
  | .init => r.hctrl.isSome = true ∧ r.hdata.isSome = true ∧ r.hclk.isSome = true

/-- R38 items 4 and 5, the registers' part: between commands the clock is high if and only if the chip is recorded as
powered down. -/
def Regs.ClockRecords (r : Regs) : Prop := r.life = .init → (r.sckq = 1 ↔ r.pwr = .poweredDown)

/-- A read may be in progress: initialised, active, and the command is READ or TRYREAD (R161, R168). -/
def Regs.Reading (r : Regs) : Prop :=
  r.life = .init ∧ r.pwr = .active ∧ (r.cmdq = opRead ∨ r.cmdq = opTryread)

/-- What holds in each phase (R31, R32, R203). While the sample is shifted in, the `BITCNT` bits sampled so far stand at the
bottom of `SHREG` and the bits above them are 0 (R21). -/
def Regs.PhaseOk (r : Regs) : Prop :=
  match r.phase with
  | .idle => r.ClockRecords
  | .resp => r.ClockRecords
  | .poll => r.life = .init ∧ r.ClockRecords ∧ (r.cmdq = opWaitready ∨ r.Reading)
  | .pollwait => r.life = .init ∧ r.ClockRecords ∧ (r.cmdq = opWaitready ∨ (r.Reading ∧ r.cmdq = opRead))
  | .pre => r.Reading ∧ r.sckq = 0
  | .shHigh => r.Reading ∧ r.sckq = 1 ∧ r.bitcnt.toNat < 24 ∧ r.shreg.toNat < 2 ^ r.bitcnt.toNat
  | .shLow => r.Reading ∧ r.sckq = 0 ∧ r.shreg.toNat < 2 ^ r.bitcnt.toNat
  | .gpHigh => r.Reading ∧ r.sckq = 1 ∧ r.bitcnt = 24 ∧ r.gpcnt ≠ 0 ∧ r.result = sext32 r.shreg
  | .gpLow => r.Reading ∧ r.sckq = 0 ∧ r.bitcnt = 24 ∧ r.gpcnt ≠ 0 ∧ r.result = sext32 r.shreg
  | .pdLow => r.life = .init ∧ r.cmdq = opPwrdown ∧ r.sckq = 0
  | .pdHigh => r.life = .init ∧ r.cmdq = opPwrdown ∧ r.sckq = 1
  | .lowhold => r.life = .init ∧ r.pwr = .active ∧ r.sckq = 0 ∧ (r.cmdq = opInit ∨ r.cmdq = opPwrup)

/-- The ranges of R20: `BITCNT` is at most 24 (R22), `GAIN` is never 0 (R27), `RESULT` is the sign extension of 24
bits (R24), `POLLIV` is at most 268 435 455 000 (R33). -/
def Regs.RangesOk (r : Regs) : Prop :=
  r.bitcnt.toNat ≤ 24 ∧ r.gain ≠ 0 ∧ r.polliv.toNat ≤ pollivMax ∧
    (-0x800000 ≤ r.result.toInt ∧ r.result.toInt ≤ 0x7FFFFF)

/-- The invariant of the registers. -/
def Regs.Inv (r : Regs) : Prop := r.HandlesOk ∧ r.PhaseOk ∧ r.RangesOk

/-- The table of R244: the states in which a command is allowed. -/
def Regs.allows (r : Regs) : Instr → Prop
  | .init _ _ _ => r.life = .uninit
  | .teardown => True
  | .isready => r.life = .init
  | .waitready _ => r.life = .init
  | .read => r.life = .init ∧ r.pwr = .active
  | .tryread => r.life = .init ∧ r.pwr = .active
  | .setgain _ => r.life = .init
  | .pwrdown => r.life = .init
  | .pwrup => r.life = .init

/-- The statuses with which a command's own step can end, and so can the whole command but for TRYREAD's NotReady, which its
`POLL` step gives (R248). -/
def commandStatuses : Instr → List Status
  | .init _ _ _ => [.illegalState, .invalidGain, .hardwareUnavailable, .lineUnavailable]
  | .teardown => [.ok]
  | .isready => [.ok, .illegalState]
  | .waitready _ => [.illegalState]
  | .read => [.illegalState]
  | .tryread => [.illegalState]
  | .setgain _ => [.ok, .illegalState, .invalidGain]
  | .pwrdown => [.illegalState]
  | .pwrup => [.illegalState]

/-! ## Time -/

/-- Time stamps never decrease from one event to the next, and none lies after `bound` (R73). Newest first. -/
def TimesOrdered : List Event → Nat → Prop
  | [], _ => True
  | e :: es, bound =>
    match e.time with
    | none => TimesOrdered es bound
    | some t => t ≤ bound ∧ TimesOrdered es t

/-- The time of an event that drove `SCK` low: a `Set(0, t)` or a successful `ReqOut(_, 0, ok, t)` (R291). -/
def Event.lowTime : Event → Option Nat
  | .set v t => if v = 0 then some t else none
  | .reqOut _ v ok t => if v = 0 ∧ ok = true then some t else none
  | .opened _ => none
  | .reqIn _ _ => none
  | .get _ _ => none
  | .released _ => none
  | .closed => none
  | .accepted _ _ => none
  | .respond _ _ _ => none
  | .reset _ => none

/-- The time of the latest event that drove `SCK` low. -/
def lastLowTime (hist : List Event) : Option Nat := hist.findSome? Event.lowTime

/-- R291: every `Set(1, t)` comes at least `T_LOW_MIN` after the latest earlier event that drove `SCK` low. -/
def LowGapsOk : List Event → Prop
  | [] => True
  | e :: es =>
    (match e with
      | .set v t => v = 1 → ∀ low, lastLowTime es = some low → low + tLowMin ≤ t
      | _ => True) ∧ LowGapsOk es

/-- R71, R292: the high time of every data pulse (`Set(1)`, `Get`, `Set(0)` in a row) and of every gain pulse
(`Set(1)`, `Set(0)` in a row) lies between `T_HIGH_MIN` and `T_HIGH_MAX`, and a data pulse's sample between the hold
and the falling edge. Newest first. The power-down's high phase is no pulse: other events follow its `Set(1)`. -/
def HighTimesOk : List Event → Prop
  | [] => True
  | e :: es =>
    (match e, es with
      | .set v fall, .get _ sample :: .set v' rise :: _ =>
        v = 0 → v' = 1 → rise + tHighMin ≤ sample ∧ sample ≤ fall ∧ fall ≤ rise + tHighMax
      | .set v fall, .set v' rise :: _ =>
        v = 0 → v' = 1 → rise + tHighMin ≤ fall ∧ fall ≤ rise + tHighMax
      | _, _ => True) ∧ HighTimesOk es

/-- If the engine drives a low clock, it has driven it low for at least `T_LOW_MIN` (R136, R291). -/
def State.LowSettled (s : State) : Prop :=
  s.regs.life = .init → s.regs.sckq = 0 → ∀ low, lastLowTime s.world.hist = some low → low + tLowMin ≤ s.world.now

/-- The latest wire event is the one that drove `SCK` low. -/
def State.JustLow (s : State) : Prop := ∃ t, s.lastT = some t ∧ lastLowTime s.world.hist = some t

/-- Where the present time stands against the history in each phase: in the high phase of a pulse the last event is its
rising edge, made now; in a low hold the latest wire event is the one that drove `SCK` low; in the other phases a
low clock has settled (R203). -/
def State.ClockTimed (s : State) : Prop :=
  match s.regs.phase with
  | .shHigh => s.world.hist.head? = some (.set 1 s.world.now)
  | .gpHigh => s.world.hist.head? = some (.set 1 s.world.now)
  | .shLow => s.JustLow
  | .gpLow => s.JustLow
  | .pdLow => s.JustLow
  | .lowhold => s.JustLow
  | .pdHigh => True
  | .idle => s.LowSettled
  | .resp => s.LowSettled
  | .poll => s.LowSettled
  | .pollwait => s.LowSettled
  | .pre => s.LowSettled

/-- The invariant of pulse timing: R73, R291 and R292 hold of the history, and the registers and the present time stand
so that every next event keeps them. -/
def State.PulseInv (s : State) : Prop :=
  s.regs.Inv ∧ TimesOrdered s.world.hist s.world.now ∧ LowGapsOk s.world.hist ∧ HighTimesOk s.world.hist ∧ s.ClockTimed

/-! ## The chip's power state -/

/-- What an event drives on `SCK`, and when. -/
def Event.drive : Event → Option (Level × Nat)
  | .set v t => some (v, t)
  | .reqOut _ v ok t => if ok then some (v, t) else none
  | .opened _ => none
  | .reqIn _ _ => none
  | .get _ _ => none
  | .released _ => none
  | .closed => none
  | .accepted _ _ => none
  | .respond _ _ _ => none
  | .reset _ => none

/-- The latest level driven on `SCK` and the time it was driven. -/
def lastDrive (hist : List Event) : Option (Level × Nat) := hist.findSome? Event.drive

/-- R90, the chip's side: `SCK` has been held high for at least `T_PD_MIN`, nothing but the engine driving it (R296;
log 17), so a chip that behaves as R90 assumes is in power-down. -/
def State.ChipAsleep (s : State) : Prop := ∃ t, lastDrive s.world.hist = some (1, t) ∧ t + tPdMin ≤ s.world.now

/-- The clock agrees with the history: the level the engine holds is the last it drove, and between
commands a high clock has been high for `T_PD_MIN` (R38 items 4 and 5, R28). -/
def State.DriveOk (s : State) : Prop :=
  s.regs.life = .init → ∃ t, lastDrive s.world.hist = some (s.regs.sckq, t) ∧ t ≤ s.world.now ∧
    (s.regs.phase = .pdHigh → s.lastT = some t) ∧
    (s.regs.phase = .idle ∨ s.regs.phase = .resp ∨ s.regs.phase = .poll ∨ s.regs.phase = .pollwait →
      s.regs.sckq = 1 → t + tPdMin ≤ s.world.now)

/-! ## What is acquired and released (R138) -/

/-- The three things the engine acquires (R30). -/
inductive Resource where
  | controller
  | dataLine
  | clockLine
  deriving DecidableEq, Repr

/-- The event is a granted acquisition of the resource (R62, R64, R65). -/
def Event.acquires (r : Resource) (e : Event) : Bool :=
  match r, e with
  | .controller, .opened ok => ok
  | .dataLine, .reqIn _ ok => ok
  | .clockLine, .reqOut _ _ ok _ => ok
  | _, _ => false

/-- The event gives the resource back (R63, R68). -/
def Event.givesBack (r : Resource) (e : Event) : Bool :=
  match r, e with
  | .controller, .closed => true
  | .dataLine, .released .data => true
  | .clockLine, .released .clk => true
  | _, _ => false

/-- The event is a `Reset`, which counts as the release of whatever was held (R281). -/
def Event.isReset : Event → Bool
  | .reset _ => true
  | .opened _ => false
  | .reqIn _ _ => false
  | .reqOut _ _ _ _ => false
  | .get _ _ => false
  | .set _ _ => false
  | .released _ => false
  | .closed => false
  | .accepted _ _ => false
  | .respond _ _ _ => false

/-- Whether a history leaves the resource held; none if it was ever acquired while held or given back while not held
(R138: "no double-release, no use of unacquired handles"). Newest first. -/
def ledger (r : Resource) : List Event → Option Bool
  | [] => some false
  | e :: es =>
    match ledger r es with
    | none => none
    | some held =>
      if e.acquires r then if held then none else some true
      else if e.givesBack r then if held then some false else none
      else if e.isReset then some false
      else some held

/-- Whether the engine's flag says the resource is held (R30). -/
def State.holds (r : Resource) (s : State) : Bool :=
  match r with
  | .controller => s.regs.hctrl.isSome
  | .dataLine => s.regs.hdata.isSome
  | .clockLine => s.regs.hclk.isSome

/-- The flags agree with the ledger of the history (R138). -/
def State.LedgerOk (s : State) : Prop := ∀ r, ledger r s.world.hist = some (s.holds r)

/-- How often the resource was acquired in a history. -/
def acquisitions (r : Resource) (hist : List Event) : Nat := hist.countP (Event.acquires r)

/-- How often the resource was given back in a history. -/
def givings (r : Resource) (hist : List Event) : Nat := hist.countP (Event.givesBack r)

/-! ## The shape of a command's events -/

/-- An event without its time stamp: the stamp is set to 0. -/
def Event.untimed : Event → Event
  | .opened ok => .opened ok
  | .reqIn pin ok => .reqIn pin ok
  | .reqOut pin level ok _ => .reqOut pin level ok 0
  | .get level _ => .get level 0
  | .set level _ => .set level 0
  | .released which => .released which
  | .closed => .closed
  | .accepted word _ => .accepted word 0
  | .respond status data _ => .respond status data 0
  | .reset _ => .reset 0

/-- The events of one data pulse that sampled `b`, newest first, without time stamps (R71). -/
def dataPulse (b : Level) : List Event := [.set 0 0, .get b 0, .set 1 0]

/-- The events of one gain pulse, newest first, without time stamps (R71). -/
def gainPulse : List Event := [.set 0 0, .set 1 0]

/-- The events of a frame that sampled `bits` and sent `g` gain pulses, newest first, without time stamps (R111, R166). -/
def frameEvents (bits : List Level) (g : Nat) : List Event :=
  (List.replicate g gainPulse).flatten ++ (bits.reverse.map dataPulse).flatten

/-- The event is a rising edge of the engine's, as the chip counts pulses (R88). -/
def Event.isRise : Event → Bool
  | .set v _ => v == 1
  | .opened _ => false
  | .reqIn _ _ => false
  | .reqOut _ _ _ _ => false
  | .get _ _ => false
  | .released _ => false
  | .closed => false
  | .accepted _ _ => false
  | .respond _ _ _ => false
  | .reset _ => false

/-- An event without what was read from the line: the level of a `Get` and the datum of a `Respond` are set to 0. -/
def Event.blind : Event → Event
  | .opened ok => .opened ok
  | .reqIn pin ok => .reqIn pin ok
  | .reqOut pin level ok time => .reqOut pin level ok time
  | .get _ time => .get 0 time
  | .set level time => .set level time
  | .released which => .released which
  | .closed => .closed
  | .accepted word time => .accepted word time
  | .respond status _ time => .respond status 0 time
  | .reset time => .reset time

/-- A state without what the line answers: the sample, result and response data, the coming answers, and the levels and
data in the history (R167). -/
def State.blind (s : State) : State :=
  { regs := { s.regs with shreg := 0, result := 0, rdata := 0 }
    world := { s.world with gets := ⟨[], 0⟩, hist := s.world.hist.map Event.blind } }

/-- The event is an `Accept` (R108). -/
def Event.isAccept : Event → Bool
  | .accepted _ _ => true
  | .opened _ => false
  | .reqIn _ _ => false
  | .reqOut _ _ _ _ => false
  | .get _ _ => false
  | .set _ _ => false
  | .released _ => false
  | .closed => false
  | .respond _ _ _ => false
  | .reset _ => false

/-- The event is a call that uses a line handle: `Get` or `Set` (R66, R67, R69). -/
def Event.needsInit : Event → Bool
  | .get _ _ => true
  | .set _ _ => true
  | .opened _ => false
  | .reqIn _ _ => false
  | .reqOut _ _ _ _ => false
  | .released _ => false
  | .closed => false
  | .accepted _ _ => false
  | .respond _ _ _ => false
  | .reset _ => false

/-! ## Premises about the host and the chip -/

/-- The host does not assert `rst` at any of the next `n` steps (R262, R280). -/
def State.NoRst (n : Nat) (s : State) : Prop := ∀ p ∈ s.world.host.take n, p.rst = false

/-- The next `n` answers of a script, the listed ones first and then the free values (R92). -/
def Script.answers {α : Type} (free : Nat → α) : Nat → Script α → List α
  | 0, _ => []
  | n + 1, c => c.value free :: Script.answers free n c.rest

/-- The levels the next `n` `getValue` calls return (R84). -/
def State.coming (n : Nat) (s : State) : List Level := s.world.gets.answers Config.freeLevel n

/-- `bits(v)`: the 24 bits of a sample, most significant first, as a chip that behaves as R86 assumes presents them
(R74, R92). -/
def bitsOf (v : Raw) : List Level := (List.range 24).map fun n => v.extractLsb' (23 - n) 1

/-- A chip that behaves as R85 and R86 assume: high while it converts, for `k` polls, then low, then its sample (R92). -/
def chipScript (k : Nat) (v : Raw) : List Level := List.replicate k 1 ++ 0 :: bitsOf v

/-- R91, U8: the chip is never ready during the next `n` samples. -/
def State.NeverReady (n : Nat) (s : State) : Prop := ∀ v ∈ s.coming n, v = 1

/-- R88: the gain code that the number of pulses in a frame selects for the next conversion. -/
def selectedGain (pulseCount : Nat) : Option Nat :=
  if pulseCount = 25 then some 128 else if pulseCount = 26 then some 32 else if pulseCount = 27 then some 64 else none

/-- One frame as the chip sees it: how many pulses, and the gain its data was converted with (R89). -/
structure ChipFrame where
  pulseCount : Nat
  dataGain : Nat
  deriving DecidableEq, Repr

/-- R89, staleness by one: every frame's data was converted with the gain that the frame before it selected. Oldest
first. -/
def StaleByOne : List ChipFrame → Prop
  | [] => True
  | [_] => True
  | a :: b :: fs => selectedGain a.pulseCount = some b.dataGain ∧ StaleByOne (b :: fs)

end Sys2Proof.Machine
end

