-- ==== Sys2Proof/Certificates/Slice0/Obligations.lean ====
section
/-! DEFINITION. The statements about the engine, from the numbered rules of spec/. Each docstring names the rules it
formalises. -/

open Sys2Proof Sys2Proof.Machine

/-! ## Encoding -/

/-- Every well-formed command is decoded from its own word: no operand bit is lost (R101, R102, R103). -/
def Obligations.DecodeInvertsEncode : Prop :=
  ∀ i : Instr, i.wellFormed = true → decode (encode i) = .ok i

/-- A word that decodes to a command is that command's word: each word has one meaning (R101, R103). -/
def Obligations.EncodeInvertsDecode : Prop :=
  ∀ (w : Word) (i : Instr), decode w = .ok i → encode i = w

/-- R105: a word matches at most one row of the opcode table, it matches a row exactly when it decodes to a command of
that row's mnemonic, and a word that matches none decodes to no command. -/
def Obligations.TableRowsAgreeWithDecoder : Prop :=
  ∀ w : Word,
    (∀ m m' : Mnemonic, m.isRowOf w → m'.isRowOf w → m = m') ∧
    (∀ m : Mnemonic, m.isRowOf w ↔ ∃ i, decode w = .ok i ∧ i.mnemonic = m) ∧
    ((∀ m : Mnemonic, ¬ m.isRowOf w) → ∃ e, decode w = .error e)

/-- R107: the words that are no commands are those with opcode 0x0 or 0xA to 0xF, and those with a nonzero must-be-zero
bit of their format. -/
def Obligations.ReservedWordsAreRefused : Prop :=
  ∀ w : Word, (∃ e, decode w = .error e) ↔
    (opcodeField w = 0 ∨ 0xA ≤ (opcodeField w).toNat ∨ (opcodeField w = 0x1 ∧ mbzField w ≠ 0) ∨
      (opcodeField w ≠ 0x1 ∧ opcodeField w ≠ 0x4 ∧ opcodeField w ≠ 0x7 ∧ valueField w ≠ 0))

/-- The assembled words of V7 decode to the commands they stand for. -/
def Obligations.AssembledWordsDecode : Prop :=
  decode 0x10800605 = .ok (.init 5 6 128) ∧ decode 0x1080FF00 = .ok (.init 0 255 128) ∧
  decode 0x20000000 = .ok .teardown ∧ decode 0x30000000 = .ok .isready ∧
  decode 0x40000064 = .ok (.waitready 100) ∧ decode 0x50000000 = .ok .read ∧ decode 0x60000000 = .ok .tryread ∧
  decode 0x70000040 = .ok (.setgain 64) ∧ decode 0x80000000 = .ok .pwrdown ∧ decode 0x90000000 = .ok .pwrup

/-! ## The step, the ports and reset -/

/-- A word presented in `IDLE` that decodes to a command is accepted, and the step is that command's meaning in the state
after the accept; the accept changes no register and appends `Accept(word, t)` at a time not before the last (R108,
R204). That it uses one entry of the host's list and one slack is the model's form of host and time (log 1, log 6). -/
def Obligations.StepRunsPresentedCommand : Prop :=
  ∀ (s : State) (w : Word) (i : Instr),
    s.pins.rst = false → s.regs.phase = .idle → s.pins.cmd = some w → decode w = .ok i →
    step s = exec i (s.pinsUsed.accept w) ∧
    (s.pinsUsed.accept w).regs = s.regs ∧
    ∃ time, s.world.now ≤ time ∧ (s.pinsUsed.accept w).world =
      { s.world with host := s.world.host.tail, slacks := s.world.slacks.rest, now := time,
                     hist := .accepted w time :: s.world.hist }

/-- R107: a word that is no command is accepted, changes no register but `PHASE`, `CMDQ`, `RSTAT` and `RDATA`, causes no
GPIO call, and is answered `InvalidCommand` with data 0, in every life-cycle and power state. `CMDQ` takes the word's
opcode field (R204; log 14). -/
def Obligations.InvalidWordIsAnswered : Prop :=
  ∀ (s : State) (w : Word) (e : DecodeError),
    s.pins.rst = false → s.regs.phase = .idle → s.pins.cmd = some w → decode w = .error e →
    ∃ t time, step s = .next t ∧ s.world.now ≤ time ∧
      t.regs = { s.regs with phase := .resp, cmdq := opcodeField w, rstat := .invalidCommand, rdata := 0 } ∧
      t.world.hist = .respond .invalidCommand 0 time :: .accepted w time :: s.world.hist

/-- R280, R253: an asserted `rst` gives the reset step in any phase, before any other step: `PHASE` becomes IDLE, `LIFE`
Uninit, no handle is held, and `Reset(t)` alone is appended. -/
def Obligations.RstWinsInEveryPhase : Prop :=
  ∀ s : State, s.pins.rst = true →
    ∃ t time, step s = .next t ∧ s.world.now ≤ time ∧
      t.regs.phase = .idle ∧ t.regs.life = .uninit ∧
      t.regs.hctrl = none ∧ t.regs.hdata = none ∧ t.regs.hclk = none ∧
      t.world.hist = .reset time :: s.world.hist

/-- R41, the values it gives: after reset `PHASE` is IDLE, `LIFE` is Uninit and no handle is held. The history is empty
(R72). -/
def Obligations.ResetStateIsIdleUninit : Prop :=
  State.reset.regs.phase = .idle ∧ State.reset.regs.life = .uninit ∧
  State.reset.regs.hctrl = none ∧ State.reset.regs.hdata = none ∧ State.reset.regs.hclk = none ∧
  State.reset.world.hist = [] ∧ State.reset.cmdReady = true

/-- R109, T11: in `RESP` the response is offered with `RSTAT` and `RDATA`, and when the host takes it the engine goes to
`IDLE` with nothing else changed and no event. -/
def Obligations.TakenResponseReturnsToIdle : Prop :=
  ∀ s : State, s.pins.rst = false → s.regs.phase = .resp → s.pins.rspReady = true →
    s.rspValid = true ∧ s.rspStatus = s.regs.rstat.code ∧ s.rspData = s.regs.rdata ∧
    step s = .next { regs := { s.regs with phase := .idle }, world := { s.world with host := s.world.host.tail } }

/-- R206, R300: in `IDLE` with no word presented, and in `RESP` with the response not taken, no register changes and no
event happens; that this is a step, which uses one entry of the host's list, is the model's (log 15). -/
def Obligations.QuiescentEngineWaits : Prop :=
  ∀ s : State, s.pins.rst = false →
    (s.regs.phase = .idle ∧ s.pins.cmd = none) ∨ (s.regs.phase = .resp ∧ s.pins.rspReady = false) →
    step s = .next { s with world := { s.world with host := s.world.host.tail } }

/-- R246: what `raise S` does: `RSTAT <- S`, `RDATA <- 0`, `PHASE <- RESP`, `Respond(S, 0, now)` appended; every other
register holds what it held. -/
def Obligations.RaiseWritesOnlyTheResponse : Prop :=
  ∀ (s : State) (st : Status),
    (s.raise st).regs = { s.regs with rstat := st, rdata := 0, phase := .resp } ∧
    (s.raise st).world = { s.world with hist := .respond st 0 s.world.now :: s.world.hist }

/-- R72: a step only appends to the history; and R108: an `Accept` is appended in `IDLE` alone, where `cmd_ready` is 1. -/
def Obligations.HistoryOnlyGrowsAndAcceptsInIdle : Prop :=
  ∀ s t : State, step s = .next t →
    ∃ es, t.world.hist = es ++ s.world.hist ∧ (s.cmdReady = false → es.all (fun e => !e.isAccept) = true)

/-! ## Errors -/

/-- R244: a command that the table does not allow in the present state is answered `IllegalState` with data 0; no register
but `PHASE`, `CMDQ`, `RSTAT`, `RDATA` changes and no GPIO call is made; a command that it allows is not so answered. -/
def Obligations.IllegalStateFollowsTheTable : Prop :=
  ∀ (i : Instr) (s : State),
    (¬ s.regs.allows i →
      exec i s = .next
        { regs := { s.regs with cmdq := i.opcode, rstat := .illegalState, rdata := 0, phase := .resp }
          world := { s.world with hist := .respond .illegalState 0 s.world.now :: s.world.hist } }) ∧
    (s.regs.allows i → ∃ t, exec i s = .next t ∧ (t.regs.phase = .resp → t.regs.rstat ≠ .illegalState))

/-- R243: an unsupported gain code, of INIT in the state Uninit and of SETGAIN in the state Init, is answered
`InvalidGain`; nothing else changed and no GPIO call is made. -/
def Obligations.InvalidGainChangesNothing : Prop :=
  ∀ s : State,
    (∀ (d c : Pin) (g : BitVec 8), s.regs.life = .uninit → g ≠ 128 → g ≠ 64 → g ≠ 32 →
      exec (.init d c g) s = .next
        { regs := { s.regs with cmdq := 0x1, rstat := .invalidGain, rdata := 0, phase := .resp }
          world := { s.world with hist := .respond .invalidGain 0 s.world.now :: s.world.hist } }) ∧
    (∀ code : BitVec 28, s.regs.life = .init → code ≠ 128 → code ≠ 64 → code ≠ 32 →
      exec (.setgain code) s = .next
        { regs := { s.regs with cmdq := 0x7, rstat := .invalidGain, rdata := 0, phase := .resp }
          world := { s.world with hist := .respond .invalidGain 0 s.world.now :: s.world.hist } })

/-- R104, R182: exactly three codes of the 28-bit operand are supported: 128 gives 1 pulse, 32 gives 2, 64 gives 3. -/
def Obligations.ExactlyThreeGainCodes : Prop :=
  ∀ (c : BitVec 28) (p : BitVec 2),
    pulses c.toNat = some p ↔ (c = 128 ∧ p = 1) ∨ (c = 32 ∧ p = 2) ∨ (c = 64 ∧ p = 3)

/-- R248: which command can end with which status. A command's own step ends the command only with the statuses that
`commandStatuses` lists (INIT, WAITREADY, the reads and the power commands end with `OK` only in a later step); a later
step ends a command with `OK`, or, only at TRYREAD's single sample, with `NotReady`. -/
def Obligations.CommandsEndWithTheirStatuses : Prop :=
  (∀ (i : Instr) (s t : State), exec i s = .next t → t.regs.phase = .resp → t.regs.rstat ∈ commandStatuses i) ∧
  (∀ s t : State, step s = .next t → s.pins.rst = false → s.regs.phase ≠ .idle → s.regs.phase ≠ .resp →
    t.regs.phase = .resp → t.regs.rstat = .ok ∨
      (t.regs.rstat = .notReady ∧ s.regs.phase = .poll ∧ s.regs.cmdq = 0x6 ∧ s.dout = 1))

/-! ## INIT and TEARDOWN -/

/-- R131, the successful INIT: from Uninit, with a supported gain, distinct pins and three granted calls, the pins and
gain are written, fresh handles held (numbered by the model, log 5), the clock claimed low, the chip taken as active, and the engine goes to `LOWHOLD`.
Every other register is as before. -/
def Obligations.InitAcquiresInOrder : Prop :=
  ∀ (s : State) (d c : Pin) (g : BitVec 8) (p : BitVec 2),
    s.regs.life = .uninit → s.regs.HandlesOk → pulses g.toNat = some p → d ≠ c →
    s.world.acqs.answers Config.freeGrant 3 = [true, true, true] →
    ∃ t time, exec (.init d c g) s = .next t ∧ s.world.now ≤ time ∧
      t.regs = { s.regs with cmdq := 0x1, dpin := d, cpin := c, gain := p, hctrl := some ⟨s.world.handles⟩,
                             hdata := some ⟨s.world.handles + 1⟩, hclk := some ⟨s.world.handles + 2⟩,
                             sckq := 0, pwr := .active, life := .init, phase := .lowhold } ∧
      t.world.handles = s.world.handles + 3 ∧ t.world.now = time ∧
      t.world.hist = .reqOut c 0 true time :: .reqIn d true :: .opened true :: s.world.hist

/-- R133, the ends at lines 5, 8 and 11: the first refused call ends INIT with `HardwareUnavailable` or
`LineUnavailable`; the configuration is written, what was acquired stays held, and no later call is made. The first two
ends are for any two pins, one line for both among them; the third is for distinct pins, and InitOnOneLineFails says how
INIT with one line for both ends there. The handles acquired are numbered by the model (log 5). -/
def Obligations.InitStopsAtFirstRefusal : Prop :=
  ∀ (s : State) (d c : Pin) (g : BitVec 8) (p : BitVec 2),
    s.regs.life = .uninit → s.regs.HandlesOk → pulses g.toNat = some p →
    (s.world.acqs.answers Config.freeGrant 1 = [false] →
      ∃ t, exec (.init d c g) s = .next t ∧
        t.regs = { s.regs with cmdq := 0x1, dpin := d, cpin := c, gain := p,
                               rstat := .hardwareUnavailable, rdata := 0, phase := .resp } ∧
        t.world.hist = .respond .hardwareUnavailable 0 s.world.now :: .opened false :: s.world.hist) ∧
    (s.world.acqs.answers Config.freeGrant 2 = [true, false] →
      ∃ t, exec (.init d c g) s = .next t ∧
        t.regs = { s.regs with cmdq := 0x1, dpin := d, cpin := c, gain := p, hctrl := some ⟨s.world.handles⟩,
                               life := .partlyInit, rstat := .lineUnavailable, rdata := 0, phase := .resp } ∧
        t.world.hist =
          .respond .lineUnavailable 0 s.world.now :: .reqIn d false :: .opened true :: s.world.hist) ∧
    (d ≠ c → s.world.acqs.answers Config.freeGrant 3 = [true, true, false] →
      ∃ t time, exec (.init d c g) s = .next t ∧ s.world.now ≤ time ∧
        t.regs = { s.regs with cmdq := 0x1, dpin := d, cpin := c, gain := p, hctrl := some ⟨s.world.handles⟩,
                               hdata := some ⟨s.world.handles + 1⟩, life := .partlyInit,
                               rstat := .lineUnavailable, rdata := 0, phase := .resp } ∧
        t.world.hist = .respond .lineUnavailable 0 time :: .reqOut c 0 false time ::
          .reqIn d true :: .opened true :: s.world.hist)

/-- R134: with one line for both pins, the controller opened and the data line granted, INIT ends at its last call with
`LineUnavailable` and `LIFE` Partial, whatever the environment would have answered to that call. The handles acquired are
numbered by the model (log 5). InitStopsAtFirstRefusal says how INIT ends where one of the first two calls is refused. -/
def Obligations.InitOnOneLineFails : Prop :=
  ∀ (s : State) (d : Pin) (g : BitVec 8) (p : BitVec 2),
    s.regs.life = .uninit → s.regs.HandlesOk → pulses g.toNat = some p →
    s.world.acqs.answers Config.freeGrant 2 = [true, true] →
    ∃ t time, exec (.init d d g) s = .next t ∧ s.world.now ≤ time ∧
      t.regs = { s.regs with cmdq := 0x1, dpin := d, cpin := d, gain := p, hctrl := some ⟨s.world.handles⟩,
                             hdata := some ⟨s.world.handles + 1⟩, life := .partlyInit,
                             rstat := .lineUnavailable, rdata := 0, phase := .resp } ∧
      t.world.hist = .respond .lineUnavailable 0 time :: .reqOut d 0 false time ::
        .reqIn d true :: .opened true :: s.world.hist

/-- R137: TEARDOWN in every state releases the clock line, the data line and the controller, each if and only if it is
held and in that order, ends in Uninit with nothing held, and answers `OK` with data 0; no other register changes. -/
def Obligations.TeardownReleasesWhatIsHeld : Prop :=
  ∀ s : State, ∃ t, exec .teardown s = .next t ∧
    t.regs = { s.regs with cmdq := 0x2, hclk := none, hdata := none, hctrl := none, life := .uninit,
                           rstat := .ok, rdata := 0, phase := .resp } ∧
    t.world = { s.world with hist := t.world.hist } ∧
    t.world.hist = .respond .ok 0 s.world.now :: ((if s.regs.hctrl.isSome then [.closed] else []) ++
      (if s.regs.hdata.isSome then [.released .data] else []) ++
      (if s.regs.hclk.isSome then [.released .clk] else []) ++ s.world.hist)

/-- R136, T10: from `LOWHOLD` the response `OK, 0` comes at least `T_LOW_MIN` after the clock was driven low, and no other
register changes. -/
def Obligations.LowholdAnswersAfterLowTime : Prop :=
  ∀ (s : State) (low : Nat), s.pins.rst = false → s.regs.phase = .lowhold → s.lastT = some low →
    ∃ t time, step s = .next t ∧ low + tLowMin ≤ time ∧ s.world.now ≤ time ∧
      t.regs = { s.regs with phase := .resp, rstat := .ok, rdata := 0 } ∧
      t.world.hist = .respond .ok 0 time :: s.world.hist

/-! ## ISREADY and WAITREADY -/

/-- R151: ISREADY, in the state Init, makes exactly one `Get` and answers `OK` with 1 if the line read low and 0 if it
read high; no register but the command and response registers and the phase changes. -/
def Obligations.IsreadyReportsTheLine : Prop :=
  ∀ s : State, s.regs.life = .init →
    ∃ t time, exec .isready s = .next t ∧ s.world.now ≤ time ∧
      t.regs = { s.regs with cmdq := 0x3, rstat := .ok, rdata := if s.dout = 0 then 1 else 0, phase := .resp } ∧
      t.world.gets = s.world.gets.rest ∧
      t.world.hist = .respond .ok (if s.dout = 0 then 1 else 0) time :: .get s.dout time :: s.world.hist

/-- R153 lines 1 to 4, R102: WAITREADY, in the state Init, stores its interval times 1000 exactly in `POLLIV` and goes to
`POLL`, with no event of its own and no other register changed. -/
def Obligations.WaitreadyStartsPolling : Prop :=
  ∀ (s : State) (iv : BitVec 28), s.regs.life = .init →
    ∃ q : BitVec 38, q.toNat = iv.toNat * 1000 ∧ exec (.waitready iv) s = .next
      { s with regs := { s.regs with cmdq := 0x4, polliv := q, phase := .poll } }

/-- R203 T1: the `POLL` step makes one `Get`. Low ends WAITREADY with `OK, 0` and takes a read to `PRE`; high takes
WAITREADY and READ to `POLLWAIT` and ends TRYREAD with `NotReady, 0`. No other register changes. -/
def Obligations.PollStepSamplesOnce : Prop :=
  ∀ s : State, s.pins.rst = false → s.regs.phase = .poll →
    (s.regs.cmdq = 0x4 ∨ s.regs.cmdq = 0x5 ∨ s.regs.cmdq = 0x6) →
    ∃ t time, step s = .next t ∧ s.world.now ≤ time ∧ t.world.gets = s.world.gets.rest ∧
      (s.dout = 0 → s.regs.cmdq = 0x4 →
        t.regs = { s.regs with phase := .resp, rstat := .ok, rdata := 0 } ∧
        t.world.hist = .respond .ok 0 time :: .get 0 time :: s.world.hist) ∧
      (s.dout = 0 → s.regs.cmdq ≠ 0x4 →
        t.regs = { s.regs with phase := .pre } ∧ t.world.hist = .get 0 time :: s.world.hist) ∧
      (s.dout = 1 → s.regs.cmdq ≠ 0x6 →
        t.regs = { s.regs with phase := .pollwait } ∧ t.world.hist = .get 1 time :: s.world.hist) ∧
      (s.dout = 1 → s.regs.cmdq = 0x6 →
        t.regs = { s.regs with phase := .resp, rstat := .notReady, rdata := 0 } ∧
        t.world.hist = .respond .notReady 0 time :: .get 1 time :: s.world.hist)

/-- R203 T2, R154: the `POLLWAIT` step lets at least `POLLIV` nanoseconds pass after the last sample and goes back to
`POLL`, with no event and no other register changed. -/
def Obligations.PollwaitLetsTheIntervalPass : Prop :=
  ∀ (s : State) (last : Nat), s.pins.rst = false → s.regs.phase = .pollwait → s.lastT = some last →
    ∃ t, step s = .next t ∧ last + s.regs.polliv.toNat ≤ t.world.now ∧ s.world.now ≤ t.world.now ∧
      t.regs = { s.regs with phase := .poll } ∧ t.world.hist = s.world.hist

/-- R153: WAITREADY presented in `IDLE` in the state Init, with a line that reads high `k` times and then low, responds
`OK, 0` after exactly `k + 1` `Get` calls and no other event; of the registers only `POLLIV`, `CMDQ` and the response
registers change. -/
def Obligations.WaitreadyAnswersWhenReady : Prop :=
  ∀ (s : State) (iv : BitVec 28) (k : Nat),
    s.regs.phase = .idle → s.regs.life = .init → s.pins.cmd = some (encode (.waitready iv)) →
    s.NoRst (2 * k + 2) → s.coming (k + 1) = List.replicate k 1 ++ [0] →
    ∃ t, Host.Core.run core (2 * k + 2) s = .next t ∧
      t.regs = { s.regs with cmdq := 0x4, polliv := pollNanos iv, phase := .resp, rstat := .ok, rdata := 0 } ∧
      t.world.hist.map Event.untimed =
        .respond .ok 0 0 :: .get 0 0 :: (List.replicate k (.get 1 0) ++
          .accepted (encode (.waitready iv)) 0 :: s.world.hist.map Event.untimed)

/-- R155, R207: while the line never reads low, the wait of WAITREADY and of READ never ends: after any number of steps
the engine is in `POLL` or `POLLWAIT`, takes no command, has responded nothing and driven nothing. -/
def Obligations.UnreadyChipBlocksForever : Prop :=
  ∀ (n : Nat) (s : State),
    (s.regs.phase = .poll ∨ s.regs.phase = .pollwait) → (s.regs.cmdq = 0x4 ∨ s.regs.cmdq = 0x5) →
    s.NoRst n → s.NeverReady n →
    ∃ t, Host.Core.run core n s = .next t ∧ (t.regs.phase = .poll ∨ t.regs.phase = .pollwait) ∧
      t.cmdReady = false ∧ t.rspValid = false ∧ t.regs = { s.regs with phase := t.regs.phase } ∧
      ∃ polls, t.world.hist.map Event.untimed = List.replicate polls (.get 1 0) ++ s.world.hist.map Event.untimed

/-! ## READ and TRYREAD -/

/-- R161 lines 1 to 5: READ, in the state Init with the chip recorded active, stores `T_POLL_READ` in `POLLIV` and goes to
`POLL`, with no event of its own and no other register changed. -/
def Obligations.ReadStartsPolling : Prop :=
  ∀ s : State, s.regs.life = .init → s.regs.pwr = .active →
    exec .read s = .next { s with regs := { s.regs with cmdq := 0x5, polliv := tPollRead, phase := .poll } }

/-- R168 lines 1 to 3: TRYREAD, in the state Init with the chip recorded active, goes to `POLL`, with no event of its own
and no other register changed. -/
def Obligations.TryreadStartsPolling : Prop :=
  ∀ s : State, s.regs.life = .init → s.regs.pwr = .active →
    exec .tryread s = .next { s with regs := { s.regs with cmdq := 0x6, phase := .poll } }

/-- R203 T3, R162: the step from `PRE` clears `SHREG` and `BITCNT` and makes the first rising edge, at least
`T_RDY_SCK_MIN` after the ready sample, without looking at the line again. -/
def Obligations.FrameBeginsWithClearedShift : Prop :=
  ∀ (s : State) (last : Nat), s.pins.rst = false → s.regs.phase = .pre → s.lastT = some last →
    ∃ t time, step s = .next t ∧ last + tRdySckMin ≤ time ∧ s.world.now ≤ time ∧
      t.regs = { s.regs with shreg := 0, bitcnt := 0, sckq := 1, phase := .shHigh } ∧
      t.world.gets = s.world.gets ∧ t.world.now = time ∧ t.world.hist = .set 1 time :: s.world.hist

/-- R203 T4, R71: the step from `SH_HIGH` samples the line once, at least `T_HIGH_MIN` after the rising edge, shifts the
bit in at the bottom, counts it, and then makes the falling edge, at most `T_HIGH_MAX` after the rising edge. -/
def Obligations.DataPulseShiftsOneBit : Prop :=
  ∀ (s : State) (rise : Nat), s.pins.rst = false → s.regs.phase = .shHigh →
    s.lastT = some rise → s.world.now ≤ rise + tHighMax →
    ∃ t sample fall, step s = .next t ∧ rise + tHighMin ≤ sample ∧ sample ≤ fall ∧ fall ≤ rise + tHighMax ∧
      t.regs = { s.regs with shreg := t.regs.shreg, bitcnt := s.regs.bitcnt + 1, sckq := 0, phase := .shLow } ∧
      t.regs.shreg.toNat = (2 * s.regs.shreg.toNat + s.dout.toNat) % 2 ^ 24 ∧
      t.world.gets = s.world.gets.rest ∧ t.world.now = fall ∧
      t.world.hist = .set 0 fall :: .get s.dout sample :: s.world.hist

/-- R203 T5: the step from `SH_LOW` comes at least `T_LOW_MIN` after the falling edge and makes the next rising edge. With
fewer than 24 bits it begins a data pulse; with 24 it forms `RESULT` as the sign extension of `SHREG`, loads `GPCNT` from
`GAIN`, and begins a gain pulse. -/
def Obligations.SampleIsFormedAfterTwentyFourBits : Prop :=
  ∀ (s : State) (low : Nat), s.pins.rst = false → s.regs.phase = .shLow → s.lastT = some low →
    (s.regs.bitcnt.toNat < 24 →
      ∃ t time, step s = .next t ∧ low + tLowMin ≤ time ∧
        t.regs = { s.regs with sckq := 1, phase := .shHigh } ∧ t.world.hist = .set 1 time :: s.world.hist) ∧
    (s.regs.bitcnt = 24 →
      ∃ t time, step s = .next t ∧ low + tLowMin ≤ time ∧
        t.regs = { s.regs with result := sext32 s.regs.shreg, gpcnt := s.regs.gain, sckq := 1, phase := .gpHigh } ∧
        t.world.hist = .set 1 time :: s.world.hist)

/-- R203 T6 and T7, R165: a gain pulse is held high between `T_HIGH_MIN` and `T_HIGH_MAX` with no sample; when its low hold
is complete `GPCNT` is decremented, and either another begins or, after the last, the read answers `OK` with `RESULT`. -/
def Obligations.GainPulseCountsDown : Prop :=
  ∀ (s : State) (edge : Nat), s.pins.rst = false → s.lastT = some edge →
    (s.regs.phase = .gpHigh → s.world.now ≤ edge + tHighMax →
      ∃ t fall, step s = .next t ∧ edge + tHighMin ≤ fall ∧ fall ≤ edge + tHighMax ∧
        t.regs = { s.regs with sckq := 0, phase := .gpLow } ∧ t.world.gets = s.world.gets ∧
        t.world.hist = .set 0 fall :: s.world.hist) ∧
    (s.regs.phase = .gpLow → 1 < s.regs.gpcnt.toNat →
      ∃ t time, step s = .next t ∧ edge + tLowMin ≤ time ∧
        t.regs = { s.regs with gpcnt := s.regs.gpcnt - 1, sckq := 1, phase := .gpHigh } ∧
        t.world.hist = .set 1 time :: s.world.hist) ∧
    (s.regs.phase = .gpLow → s.regs.gpcnt = 1 →
      ∃ t time, step s = .next t ∧ edge + tLowMin ≤ time ∧
        t.regs = { s.regs with gpcnt := 0, rstat := .ok, rdata := s.regs.result, phase := .resp } ∧
        t.world.hist = .respond .ok s.regs.result time :: s.world.hist)

/-- R163 to R166, R74, R77: from `PRE`, without a reset, the frame runs to its end in exactly `1 + 2 * (24 + GAIN)` steps:
24 data pulses, each sampled once, and `GAIN` gain pulses, alternating edges and nothing else; bit `24 - n` of `SHREG` is
the level of the n-th sample, and the response is `OK` with its sign extension. No other register changes. -/
def Obligations.FrameReadsTwentyFourBits : Prop :=
  ∀ s : State, s.regs.phase = .pre → s.regs.gain ≠ 0 → s.NoRst (1 + 2 * (24 + s.regs.gain.toNat)) →
    ∃ (t : State) (r : Raw), Host.Core.run core (1 + 2 * (24 + s.regs.gain.toNat)) s = .next t ∧
      (∀ n : Nat, n < 24 → (s.coming 24)[n]? = some (r.extractLsb' (23 - n) 1)) ∧
      t.regs = { s.regs with shreg := r, bitcnt := 24, gpcnt := 0, result := sext32 r, sckq := 0, phase := .resp,
                             rstat := .ok, rdata := sext32 r } ∧
      t.world.hist.map Event.untimed = .respond .ok (sext32 r) 0 ::
        (frameEvents (s.coming 24) s.regs.gain.toNat ++ s.world.hist.map Event.untimed)

/-- R301: a frame that begins after a ready sample at `last` ends with a `Respond(OK, RDATA, t)`, the newest event, whose
time stamp is no earlier than `T_RDY_SCK_MIN` and 24 + `GAIN` times `T_HIGH_MIN + T_LOW_MIN` after `last`. -/
def Obligations.FrameTakesItsTime : Prop :=
  ∀ (s : State) (last : Nat), s.regs.phase = .pre → s.regs.gain ≠ 0 → s.lastT = some last →
    s.NoRst (1 + 2 * (24 + s.regs.gain.toNat)) →
    ∃ t, Host.Core.run core (1 + 2 * (24 + s.regs.gain.toNat)) s = .next t ∧
      t.world.hist.head? = some (.respond .ok t.regs.rdata t.world.now) ∧
      last + tRdySckMin + (24 + s.regs.gain.toNat) * (tHighMin + tLowMin) ≤ t.world.now

/-- R161, R168, R92: a READ presented in `IDLE`, the engine initialised and active, with a chip that reads not ready `k`
times, then ready, and then presents the bits of `v` most significant first, answers `OK` with the sign extension of `v`,
after exactly those samples and 24 + `GAIN` pulses. A TRYREAD does the same when the first poll is ready. No register but
those of the read changes. -/
def Obligations.ReadReturnsTheChipsSample : Prop :=
  ∀ (s : State) (i : Instr) (k : Nat) (v : Raw),
    (i = .read ∨ (i = .tryread ∧ k = 0)) →
    s.regs.phase = .idle → s.regs.life = .init → s.regs.pwr = .active → s.regs.gain ≠ 0 →
    s.pins.cmd = some (encode i) → s.coming (k + 1 + 24) = chipScript k v →
    s.NoRst (2 * k + 3 + 2 * (24 + s.regs.gain.toNat)) →
    ∃ t, Host.Core.run core (2 * k + 3 + 2 * (24 + s.regs.gain.toNat)) s = .next t ∧
      t.regs = { s.regs with cmdq := i.opcode, polliv := if i = .read then tPollRead else s.regs.polliv,
                             shreg := v, bitcnt := 24, gpcnt := 0, result := sext32 v, sckq := 0,
                             phase := .resp, rstat := .ok, rdata := sext32 v } ∧
      t.world.hist.map Event.untimed = .respond .ok (sext32 v) 0 ::
        (frameEvents (bitsOf v) s.regs.gain.toNat ++ .get 0 0 :: (List.replicate k (.get 1 0) ++
          .accepted (encode i) 0 :: s.world.hist.map Event.untimed))

/-- R164: `RESULT` as bits and as a number: bits [23:0] are `SHREG`, bits [31:24] copy bit 23; the integer is the raw value
below 0x800000 and the raw value less 0x1000000 from there on; and the extension is idempotent. -/
def Obligations.SignExtensionMatchesTheFormula : Prop :=
  ∀ r : Raw,
    (sext32 r).extractLsb' 0 24 = r ∧
    (sext32 r).extractLsb' 24 8 = (if r.getLsbD 23 then 0xFF else 0x00) ∧
    (sext32 r).toInt = (if r.toNat ≥ 0x800000 then (r.toNat : Int) - 0x1000000 else r.toNat) ∧
    sext32 ((sext32 r).extractLsb' 0 24) = sext32 r

/-- R167: outside the `POLL` step nothing depends on what the line answers: two states that differ only in samples, results,
response data and coming answers step alike, up to the same things. -/
def Obligations.DataBitsDoNotSteer : Prop :=
  ∀ s s' t : State, s.blind = s'.blind → s.regs.phase ≠ .poll → step s = .next t →
    ∃ t', step s' = .next t' ∧ t.blind = t'.blind

/-! ## SETGAIN -/

/-- R181: SETGAIN with a supported code, in the state Init, stores its pulse count in `GAIN` and answers `OK, 0` in one
step; it touches no wire and no other register. -/
def Obligations.SetgainStoresThePulseCount : Prop :=
  ∀ (s : State) (code : BitVec 28) (p : BitVec 2), s.regs.life = .init →
    ((code = 128 ∧ p = 1) ∨ (code = 32 ∧ p = 2) ∨ (code = 64 ∧ p = 3)) →
    exec (.setgain code) s = .next
      { regs := { s.regs with cmdq := 0x7, gain := p, rstat := .ok, rdata := 0, phase := .resp }
        world := { s.world with hist := .respond .ok 0 s.world.now :: s.world.hist } }

/-- R183, with the chip that R88 and R89 assume: the frame that a read runs with the gain of `code` has exactly
`24 + pulses(code)` rising edges, which select `code` for the next conversion; and a chip that is stale by one converts
the data of the frame after it, and not its own, with `code`. -/
def Obligations.NewGainShowsOneReadLater : Prop :=
  ∀ (s : State) (code : Nat), pulses code = some s.regs.gain → s.regs.phase = .pre →
    s.NoRst (1 + 2 * (24 + s.regs.gain.toNat)) →
    ∃ t es, Host.Core.run core (1 + 2 * (24 + s.regs.gain.toNat)) s = .next t ∧
      t.world.hist = es ++ s.world.hist ∧
      es.countP Event.isRise = 24 + s.regs.gain.toNat ∧
      selectedGain (es.countP Event.isRise) = some code ∧
      ∀ before this after : ChipFrame, this.pulseCount = es.countP Event.isRise → StaleByOne [before, this, after] →
        after.dataGain = code ∧ selectedGain before.pulseCount = some this.dataGain

/-! ## PWRDOWN and PWRUP -/

/-- R191: PWRDOWN, in the state Init, drives the clock low, at least `T_LOW_MIN` later high, and at least 60 microseconds
after that records the chip as powered down and answers `OK, 0`, the clock left high. No `Get` is made and no other
register changes. -/
def Obligations.PwrdownHoldsTheClockHigh : Prop :=
  ∀ s : State, s.regs.life = .init →
    ∃ s1 low, exec .pwrdown s = .next s1 ∧
      s1.regs = { s.regs with cmdq := 0x8, sckq := 0, phase := .pdLow } ∧
      s1.world = { s.world with hist := .set 0 low :: s.world.hist } ∧
      (s1.NoRst 2 → ∃ t rise done, Host.Core.run core 2 s1 = .next t ∧
        low + tLowMin ≤ rise ∧ rise + 60000 ≤ done ∧
        t.regs = { s.regs with cmdq := 0x8, sckq := 1, pwr := .poweredDown, phase := .resp, rstat := .ok, rdata := 0 } ∧
        t.world.gets = s.world.gets ∧
        t.world.hist = .respond .ok 0 done :: .set 1 rise :: .set 0 low :: s.world.hist)

/-- R194: PWRUP, in the state Init, drives the clock low and records the chip as active; at least `T_LOW_MIN` later it
answers `OK, 0`. No `Get` is made and no other register changes. -/
def Obligations.PwrupDrivesTheClockLow : Prop :=
  ∀ s : State, s.regs.life = .init →
    ∃ s1 low, exec .pwrup s = .next s1 ∧
      s1.regs = { s.regs with cmdq := 0x9, sckq := 0, pwr := .active, phase := .lowhold } ∧
      s1.world = { s.world with hist := .set 0 low :: s.world.hist } ∧
      (s1.NoRst 1 → ∃ t done, Host.Core.run core 1 s1 = .next t ∧ low + tLowMin ≤ done ∧
        t.regs = { s.regs with cmdq := 0x9, sckq := 0, pwr := .active, phase := .resp, rstat := .ok, rdata := 0 } ∧
        t.world.gets = s.world.gets ∧
        t.world.hist = .respond .ok 0 done :: .set 0 low :: s.world.hist)

/-! ## Who writes which register -/

/-- R43: what each command's own step leaves unchanged. `SHREG`, `BITCNT`, `GPCNT` and `RESULT` always; the other registers
unless the table of R43 says the command writes them. -/
def Obligations.CommandsWriteOnlyTheirRegisters : Prop :=
  ∀ (i : Instr) (s t : State), exec i s = .next t →
    t.regs.shreg = s.regs.shreg ∧ t.regs.bitcnt = s.regs.bitcnt ∧ t.regs.gpcnt = s.regs.gpcnt ∧
    t.regs.result = s.regs.result ∧
    (i.mnemonic ≠ .init → t.regs.dpin = s.regs.dpin ∧ t.regs.cpin = s.regs.cpin) ∧
    (i.mnemonic ≠ .init → i.mnemonic ≠ .setgain → t.regs.gain = s.regs.gain) ∧
    (i.mnemonic ≠ .init → i.mnemonic ≠ .pwrup → t.regs.pwr = s.regs.pwr) ∧
    (i.mnemonic ≠ .init → i.mnemonic ≠ .pwrup → i.mnemonic ≠ .pwrdown → t.regs.sckq = s.regs.sckq) ∧
    (i.mnemonic ≠ .init → i.mnemonic ≠ .teardown →
      t.regs.life = s.regs.life ∧ t.regs.hctrl = s.regs.hctrl ∧ t.regs.hdata = s.regs.hdata ∧
      t.regs.hclk = s.regs.hclk ∧ t.world.acqs = s.world.acqs ∧ t.world.handles = s.world.handles) ∧
    (i.mnemonic ≠ .waitready → i.mnemonic ≠ .read → t.regs.polliv = s.regs.polliv)

/-- R25, R26, R27: at any step without a reset, `DPIN` and `CPIN` change only where a presented INIT is accepted, and `GAIN`
only where a presented INIT or SETGAIN is. -/
def Obligations.ConfigurationChangesOnlyByCommand : Prop :=
  ∀ s t : State, step s = .next t → s.pins.rst = false →
    (t.regs.dpin ≠ s.regs.dpin ∨ t.regs.cpin ≠ s.regs.cpin →
      s.regs.phase = .idle ∧ ∃ w d c g, s.pins.cmd = some w ∧ decode w = .ok (.init d c g)) ∧
    (t.regs.gain ≠ s.regs.gain →
      s.regs.phase = .idle ∧ ∃ w, s.pins.cmd = some w ∧
        ((∃ d c g, decode w = .ok (.init d c g)) ∨ ∃ code, decode w = .ok (.setgain code)))

/-- R21, R22, R23, R24: at any step without a reset, `SHREG` and `BITCNT` change only in the steps that begin a frame or
take a sample; `RESULT` only in the step that ends the data phase, in which `BITCNT` is 24; and `GPCNT` only in that step,
which loads it from `GAIN`, and where a gain pulse, its low hold included, is complete, which takes one away. -/
def Obligations.SampleRegistersChangeOnlyInFrames : Prop :=
  ∀ s t : State, step s = .next t → s.pins.rst = false →
    (t.regs.shreg ≠ s.regs.shreg ∨ t.regs.bitcnt ≠ s.regs.bitcnt →
      s.regs.phase = .pre ∨ s.regs.phase = .shHigh) ∧
    (t.regs.result ≠ s.regs.result →
      s.regs.phase = .shLow ∧ s.regs.bitcnt = 24 ∧ t.regs.result = sext32 s.regs.shreg) ∧
    (t.regs.gpcnt ≠ s.regs.gpcnt →
      (s.regs.phase = .shLow ∧ s.regs.bitcnt = 24 ∧ t.regs.gpcnt = s.regs.gain) ∨
      (s.regs.phase = .gpLow ∧ t.regs.gpcnt.toNat + 1 = s.regs.gpcnt.toNat))

/-- R38 item 7: a read that ends leaves `RESULT` the sign extension of `SHREG`, and from then on every step without a reset
keeps it so, but for the steps of a frame that is still shifting. -/
def Obligations.ResultMatchesTheShiftRegister : Prop :=
  ∀ s t : State, s.regs.Inv → step s = .next t → s.pins.rst = false →
    (s.regs.phase = .gpLow → t.regs.result = sext32 t.regs.shreg) ∧
    (s.regs.phase ≠ .pre → s.regs.phase ≠ .shHigh → s.regs.result = sext32 s.regs.shreg →
      t.regs.result = sext32 t.regs.shreg)

/-- R190: at any step without a reset `PWR` changes to PoweredDown only at the end of a power-down's high hold, and to Active
only where a presented INIT or PWRUP is accepted. -/
def Obligations.PowerRecordTransitions : Prop :=
  ∀ s t : State, step s = .next t → s.pins.rst = false → t.regs.pwr ≠ s.regs.pwr →
    (t.regs.pwr = .poweredDown ∧ s.regs.phase = .pdHigh) ∨
    (t.regs.pwr = .active ∧ s.regs.phase = .idle ∧ ∃ w, s.pins.cmd = some w ∧
      ((∃ d c g, decode w = .ok (.init d c g)) ∨ decode w = .ok .pwrup))

/-- R69, R285: from a state that meets the invariant, a step that makes a `Get` or a `Set` is made with `LIFE` Init, the
data line held for a `Get` and the clock line for a `Set`. -/
def Obligations.WireCallsUseHeldLines : Prop :=
  ∀ s t : State, s.regs.Inv → step s = .next t →
    ∀ es, t.world.hist = es ++ s.world.hist → ∀ e ∈ es, e.needsInit = true →
      s.regs.life = .init ∧ s.regs.hdata.isSome = true ∧ s.regs.hclk.isSome = true

/-! ## Invariants -/

/-- The registers' invariant holds after reset. Its clauses about registers that R41 leaves unspecified rest on the model's
own choice of their values (log 9). -/
def Obligations.ResetMeetsRegisterInvariant : Prop := State.reset.regs.Inv

/-- R38, R20, R22, R27: every step keeps the invariant of the registers: which handles each life-cycle state holds, that the
clock agrees with the power record, what each phase needs, and the ranges of the registers. That the reset step keeps the
ranges of `BITCNT`, `GAIN`, `RESULT` and `POLLIV`, which R41 leaves unspecified, rests on the model's choice of log 10. -/
def Obligations.StepKeepsRegisterInvariant : Prop :=
  ∀ s t : State, s.regs.Inv → step s = .next t → t.regs.Inv

/-- R201, R206: from a state that meets the invariant every step has a next state: no fault, no refusal, never stuck. So the
model's own three faults (log 13) are not reached. -/
def Obligations.StepsNeverStop : Prop :=
  ∀ s : State, s.regs.Inv → ∃ t, step s = .next t

/-- The invariant of pulse timing holds after reset. Its clauses about registers that R41 leaves unspecified rest on the
model's own choice of their values (log 9). -/
def Obligations.ResetMeetsPulseTiming : Prop := State.reset.PulseInv

/-- R73, R291, R292: every step keeps the order of time, the low gap of `T_LOW_MIN` before every rising edge, and the bounds
`T_HIGH_MIN` and `T_HIGH_MAX` on the high phase of every data and gain pulse. The invariant holds `Regs.Inv`, so its case of
the reset step rests on the ranges that log 10 chooses. -/
def Obligations.StepKeepsPulseTiming : Prop :=
  ∀ s t : State, s.PulseInv → step s = .next t → t.PulseInv

/-- The clock record agrees with the history after reset: `LIFE` is Uninit, so nothing is claimed. -/
def Obligations.ResetMeetsClockRecord : Prop := State.reset.DriveOk

/-- R28, R31, R38: every step keeps the registers' invariant, by which `PWR` agrees with the clock between commands, and the
agreement of the clock with what was driven on `SCK`, and when. So the power record follows what was driven. The
registers' invariant after a reset step rests on the ranges that log 10 chooses. -/
def Obligations.StepKeepsClockRecord : Prop :=
  ∀ s t : State, s.regs.Inv → s.DriveOk → step s = .next t → t.regs.Inv ∧ t.DriveOk

/-- R38 item 5, R28, R190: between commands, initialised, the chip is recorded as powered down exactly when `SCK` has been
held high for at least 60 microseconds, which is when a chip that behaves as R90 assumes is in power-down, nothing else
driving the line (R296; log 17); and in the
state Uninit nothing is held, in Partial the controller and not the clock line, in Init all three, and `GAIN` is 1 to 3. -/
def Obligations.IdleRecordsFollowTheChip : Prop :=
  ∀ s : State, s.regs.Inv → s.DriveOk → s.regs.phase = .idle →
    (s.regs.life = .init → (s.regs.pwr = .poweredDown ↔ s.ChipAsleep) ∧
      (s.regs.pwr = .active → s.sckPin = some 0) ∧ (s.regs.pwr = .poweredDown → s.sckPin = some 1) ∧
      s.regs.hctrl.isSome = true ∧ s.regs.hdata.isSome = true ∧ 1 ≤ s.regs.gain.toNat ∧ s.regs.gain.toNat ≤ 3) ∧
    (s.regs.life = .partlyInit → s.regs.hctrl.isSome = true ∧ s.sckPin = none) ∧
    (s.regs.life = .uninit → s.regs.hctrl = none ∧ s.regs.hdata = none ∧ s.sckPin = none) ∧
    s.regs.bitcnt.toNat ≤ 24

/-- After reset the ledger of acquisitions and releases is in agreement: nothing acquired, nothing held. -/
def Obligations.ResetMeetsTheLedger : Prop := State.reset.LedgerOk

/-- R138, R281: every step keeps the ledger: nothing is acquired while held, nothing is given back that is not held, a reset
counts as the release of whatever was held, and the flags say what the history leaves held. -/
def Obligations.StepKeepsTheLedger : Prop :=
  ∀ s t : State, s.regs.Inv → s.LedgerOk → step s = .next t → t.LedgerOk

/-- R138: in a history in agreement with the flags, each thing was given back at most as often as it was acquired; after a
TEARDOWN, no reset in the history, exactly as often. -/
def Obligations.ReleasesMatchAcquisitions : Prop :=
  ∀ (s : State) (r : Resource), s.LedgerOk →
    givings r s.world.hist ≤ acquisitions r s.world.hist ∧
    (s.world.hist.all (fun e => !e.isReset) = true →
      ∃ t, exec .teardown s = .next t ∧ givings r t.world.hist = acquisitions r t.world.hist)
end

