-- ==== Sys2Proof/Laws/Encoding.lean ====
section
/-! SUPPORT. The fields of words, and that every term is well formed (R101, R102). -/

namespace Sys2Proof

/-- The operand types carry the widths of R102. -/
theorem Instr.wellFormed_all (i : Instr) : i.wellFormed = true := by
  cases i with
  | init d c g => simp [Instr.wellFormed]; have := d.isLt; have := c.isLt; have := g.isLt; omega
  | waitready iv => simp [Instr.wellFormed]; have := iv.isLt; omega
  | setgain code => simp [Instr.wellFormed]; have := code.isLt; omega
  | teardown | isready | read | tryread | pwrdown | pwrup => rfl

@[simp] theorem opcodeField_wordZ (op : BitVec 4) : opcodeField (wordZ op) = op := by
  apply BitVec.eq_of_getLsbD_eq
  intro i hi
  have h1 : ¬ 28 + i < 28 := by omega
  have h2 : 28 + i - 28 = i := by omega
  simp only [opcodeField, wordZ, BitVec.getLsbD_extractLsb', BitVec.getLsbD_append, h1, h2, if_false]
  simp [hi]

@[simp] theorem opcodeField_wordV (op : BitVec 4) (v : BitVec 28) : opcodeField (wordV op v) = op := by
  apply BitVec.eq_of_getLsbD_eq
  intro i hi
  have h1 : ¬ 28 + i < 28 := by omega
  have h2 : 28 + i - 28 = i := by omega
  simp only [opcodeField, wordV, BitVec.getLsbD_extractLsb', BitVec.getLsbD_append, h1, h2, if_false]
  simp [hi]

@[simp] theorem opcodeField_wordI (op : BitVec 4) (g : BitVec 8) (c d : Pin) : opcodeField (wordI op g c d) = op := by
  apply BitVec.eq_of_getLsbD_eq
  intro i hi
  have h1 : ¬ 28 + i < 8 := by omega
  have h2 : ¬ 28 + i - 8 < 8 := by omega
  have h3 : ¬ 28 + i - 8 - 8 < 8 := by omega
  have h4 : ¬ 28 + i - 8 - 8 - 8 < 4 := by omega
  have h5 : 28 + i - 8 - 8 - 8 - 4 = i := by omega
  simp only [opcodeField, wordI, BitVec.getLsbD_extractLsb', BitVec.getLsbD_append, h1, h2, h3, h4, h5, if_false]
  simp [hi]

end Sys2Proof
end

