-- ==== Sys2Proof/Laws/State.lean ====
section
/-! SUPPORT. What each named operation leaves in the registers and in the world, true by definition: one lemma for each
of the two halves of the state, so that no later proof unfolds an operation. -/

namespace Sys2Proof.Machine

variable (s : State)

@[simp] theorem State.record_regs (e : Event) : (s.record e).regs = s.regs := rfl
@[simp] theorem State.record_world (e : Event) :
    (s.record e).world = { s.world with hist := e :: s.world.hist } := rfl

@[simp] theorem State.memRead_regs : (s.memRead).regs = s.regs := rfl
@[simp] theorem State.memRead_world :
    (s.memRead).world = { s.world with gets := s.world.gets.rest, hist := .get s.dout s.world.now :: s.world.hist } := rfl

@[simp] theorem State.atTime_regs (t : Nat) : (s.atTime t).regs = s.regs := rfl
@[simp] theorem State.atTime_world (t : Nat) :
    (s.atTime t).world = { s.world with now := t, slacks := s.world.slacks.rest } := rfl

@[simp] theorem State.later_regs : (s.later).regs = s.regs := rfl
@[simp] theorem State.later_world :
    (s.later).world = { s.world with now := s.world.now + s.slack, slacks := s.world.slacks.rest } := rfl

@[simp] theorem State.delay_regs (d : Nat) : (s.delay d).regs = s.regs := rfl
@[simp] theorem State.delay_world (d : Nat) :
    (s.delay d).world = { s.world with now := s.earliest d + s.slack, slacks := s.world.slacks.rest } := rfl

@[simp] theorem State.acquired_regs (barred : Bool) (event : Bool → Event) : (s.acquired barred event).regs = s.regs := rfl
@[simp] theorem State.acquired_world (barred : Bool) (event : Bool → Event) :
    (s.acquired barred event).world = { s.world with acqs := s.world.acqs.rest, handles := s.world.handles + (s.grants barred).toNat, hist := event (s.grants barred) :: s.world.hist } := rfl

@[simp] theorem State.openedController_regs : (s.openedController).regs = s.regs := rfl
@[simp] theorem State.openedController_world :
    (s.openedController).world = (s.acquired false .opened).world := rfl

@[simp] theorem State.requestedInput_regs (pin : Pin) : (s.requestedInput pin).regs = s.regs := rfl
@[simp] theorem State.requestedInput_world (pin : Pin) :
    (s.requestedInput pin).world = (s.acquired (s.holdsLine pin) (.reqIn pin)).world := rfl

@[simp] theorem State.requestedOutput_regs (pin : Pin) (v : Level) : (s.requestedOutput pin v).regs = s.regs := rfl
@[simp] theorem State.requestedOutput_world (pin : Pin) (v : Level) :
    (s.requestedOutput pin v).world = (s.acquired (s.holdsLine pin) fun ok => .reqOut pin v ok s.world.now).world := rfl

@[simp] theorem State.pinsUsed_regs : (s.pinsUsed).regs = s.regs := rfl
@[simp] theorem State.pinsUsed_world :
    (s.pinsUsed).world = { s.world with host := s.world.host.tail } := rfl

@[simp] theorem State.accept_regs (w : Word) : (s.accept w).regs = s.regs := rfl
@[simp] theorem State.accept_world (w : Word) :
    (s.accept w).world = { s.later.world with hist := .accepted w s.later.world.now :: s.world.hist } := rfl

@[simp] theorem State.goto_regs (p : Phase) : (s.goto p).regs = { s.regs with phase := p } := rfl
@[simp] theorem State.goto_world (p : Phase) : (s.goto p).world = s.world := rfl

@[simp] theorem State.latch_regs (op : BitVec 4) : (s.latch op).regs = { s.regs with cmdq := op } := rfl
@[simp] theorem State.latch_world (op : BitVec 4) : (s.latch op).world = s.world := rfl

@[simp] theorem State.takeResponse_regs : (s.takeResponse).regs = { s.regs with phase := .idle } := rfl
@[simp] theorem State.takeResponse_world : (s.takeResponse).world = s.world := rfl

@[simp] theorem State.memWrite_regs (v : Level) :
    (s.memWrite v).regs = { s.regs with sckq := v } := rfl
@[simp] theorem State.memWrite_world (v : Level) :
    (s.memWrite v).world = { s.world with hist := .set v s.world.now :: s.world.hist } := rfl

@[simp] theorem State.respond_regs (st : Status) (d : Word) :
    (s.respond st d).regs = { s.regs with rstat := st, rdata := d, phase := .resp } := rfl
@[simp] theorem State.respond_world (st : Status) (d : Word) :
    (s.respond st d).world = { s.world with hist := .respond st d s.world.now :: s.world.hist } := rfl

@[simp] theorem State.raise_regs (st : Status) :
    (s.raise st).regs = { s.regs with rstat := st, rdata := 0, phase := .resp } := rfl
@[simp] theorem State.raise_world (st : Status) :
    (s.raise st).world = { s.world with hist := .respond st 0 s.world.now :: s.world.hist } := rfl

@[simp] theorem State.rejectWord_regs (w : Word) :
    (s.rejectWord w).regs = { s.regs with cmdq := opcodeField w, rstat := .invalidCommand, rdata := 0, phase := .resp } := rfl
@[simp] theorem State.rejectWord_world (w : Word) :
    (s.rejectWord w).world = { s.world with hist := .respond .invalidCommand 0 s.world.now :: s.world.hist } := rfl

@[simp] theorem State.rstStep_regs :
    (s.rstStep).regs = Regs.afterRst s.world.resets := rfl
@[simp] theorem State.rstStep_world :
    (s.rstStep).world = { s.later.world with resets := s.world.resets + 1, hist := .reset s.later.world.now :: s.world.hist } := rfl

@[simp] theorem State.holdHigh_regs (edge : Option Nat) : (s.holdHigh edge).regs = s.regs := by
  cases edge <;> rfl

/-- A hold keeps everything of the world but the time and the slack it uses. -/
theorem State.holdHigh_world (edge : Option Nat) :
    ∃ t, (s.holdHigh edge).world = { s.world with now := t, slacks := s.world.slacks.rest } := by
  cases edge <;> exact ⟨_, rfl⟩

@[simp] theorem State.holdHigh_hist (edge : Option Nat) : (s.holdHigh edge).world.hist = s.world.hist := by
  cases edge <;> rfl

@[simp] theorem State.holdHigh_gets (edge : Option Nat) : (s.holdHigh edge).world.gets = s.world.gets := by
  cases edge <;> rfl

@[simp] theorem State.holdHigh_acqs (edge : Option Nat) : (s.holdHigh edge).world.acqs = s.world.acqs := by
  cases edge <;> rfl

@[simp] theorem State.holdHigh_host (edge : Option Nat) : (s.holdHigh edge).world.host = s.world.host := by
  cases edge <;> rfl

@[simp] theorem State.holdHigh_handles (edge : Option Nat) : (s.holdHigh edge).world.handles = s.world.handles := by
  cases edge <;> rfl

@[simp] theorem State.holdHigh_resets (edge : Option Nat) : (s.holdHigh edge).world.resets = s.world.resets := by
  cases edge <;> rfl

@[simp] theorem State.holdHigh_slacks (edge : Option Nat) :
    (s.holdHigh edge).world.slacks = s.world.slacks.rest := by
  cases edge <;> rfl

/-- The level on the line depends on the answers alone. -/
theorem State.dout_eq {s t : State} (h : t.world.gets = s.world.gets) : t.dout = s.dout := by
  simp [State.dout, h]

/-- `LASTT` depends on the history alone. -/
theorem State.lastT_eq {s t : State} (h : t.world.hist = s.world.hist) : t.lastT = s.lastT := by
  simp [State.lastT, h]

end Sys2Proof.Machine
end

