-- ==== Sys2Proof/Laws/Timing.lean ====
section
/-! SUPPORT. The orderings of the timing parameters (R6) and the bounds on time stamps (R70, R71, R73, R202). -/

namespace Sys2Proof.Machine

theorem tHighMin_pos : 0 < tHighMin := by unfold tHighMin; omega

theorem tHighMin_lt_tPdMin : tHighMin < tPdMin := by
  have h := Nat.mod_lt Config.freeHighMin (show 0 < tPdMin - 1 by decide)
  have : tPdMin = 60000 := rfl
  unfold tHighMin
  omega

theorem tHighMin_le_tHighMax : tHighMin ≤ tHighMax := by unfold tHighMax; omega

theorem tHighMax_lt_tPdMin : tHighMax < tPdMin := by
  have hm := tHighMin_lt_tPdMin
  have h := Nat.mod_lt Config.freeHighMax (show 0 < tPdMin - tHighMin by omega)
  unfold tHighMax
  omega

theorem tLowMin_pos : 0 < tLowMin := by unfold tLowMin; omega

theorem tPollRead_le : tPollRead.toNat ≤ pollivMax := by
  have h := Nat.mod_lt Config.freePollRead (show 0 < pollivMax + 1 by decide)
  have h' := Nat.mod_le (Config.freePollRead % (pollivMax + 1)) (2 ^ 38)
  simp only [tPollRead, BitVec.toNat_ofNat]
  omega

/-- Time does not go back in a step with no guard (R73). -/
theorem State.now_le_later (s : State) : s.world.now ≤ s.later.world.now := by
  simp

/-- A delay's earliest time is not before the present (R73). -/
theorem State.now_le_earliest (d : Nat) (s : State) : s.world.now ≤ s.earliest d := by
  unfold State.earliest
  split <;> omega

/-- A delay's earliest time meets its guard (R70, R202). -/
theorem State.lastT_add_le_earliest {d t : Nat} {s : State} (h : s.lastT = some t) : t + d ≤ s.earliest d := by
  simp only [State.earliest, h]
  omega

/-- A delay meets its guard (R70, R202). -/
theorem State.lastT_add_le_delay {d t : Nat} {s : State} (h : s.lastT = some t) :
    t + d ≤ (s.delay d).world.now := by
  have := State.lastT_add_le_earliest (d := d) h
  simp only [State.delay_world]
  omega

/-- Time does not go back in a delay (R73). -/
theorem State.now_le_delay (d : Nat) (s : State) : s.world.now ≤ (s.delay d).world.now := by
  have := s.now_le_earliest d
  simp only [State.delay_world]
  omega

/-- Time does not go back in a hold (R73). -/
theorem State.now_le_holdHigh (edge : Option Nat) (s : State) : s.world.now ≤ (s.holdHigh edge).world.now := by
  cases edge with
  | none => exact s.now_le_later
  | some t => simp only [State.holdHigh, State.atTime_world]; omega

/-- A hold's lower bound: `T_HIGH_MIN` after the edge (R71). -/
theorem State.edge_add_le_holdHigh (t : Nat) (s : State) :
    t + tHighMin ≤ (s.holdHigh (some t)).world.now := by
  simp only [State.holdHigh, State.atTime_world]
  omega

/-- A hold's upper bound: `T_HIGH_MAX` after the edge, if the present is not past it (R71, D12). -/
theorem State.holdHigh_le_edge_add {t : Nat} {s : State} (h : s.world.now ≤ t + tHighMax) :
    (s.holdHigh (some t)).world.now ≤ t + tHighMax := by
  have := tHighMin_le_tHighMax
  simp only [State.holdHigh, State.atTime_world]
  omega

end Sys2Proof.Machine
end

