-- ==== Sys2Proof/Laws/Ops.lean ====
section
/-! SUPPORT. What each shared operation can do, said once: the checks of the commands, the stages of INIT, the releases of
TEARDOWN, the supported gain codes, and the cases of a step. -/

namespace Sys2Proof.Machine

/-- The supported gain codes (R104). -/
theorem pulses_eq_some {c : Nat} {p : BitVec 2} :
    pulses c = some p ↔ (c = 128 ∧ p = 1) ∨ (c = 32 ∧ p = 2) ∨ (c = 64 ∧ p = 3) := by
  unfold pulses
  split_ifs with h1 h2 h3 <;> simp_all [eq_comm]

/-- A supported code has at least one pulse (R104, R27). -/
theorem pulses_ne_zero {c : Nat} {p : BitVec 2} (h : pulses c = some p) : p ≠ 0 := by
  rcases pulses_eq_some.mp h with ⟨-, rfl⟩ | ⟨-, rfl⟩ | ⟨-, rfl⟩ <;> decide

/-- An unsupported code (R104). -/
theorem pulses_eq_none {c : Nat} : pulses c = none ↔ c ≠ 128 ∧ c ≠ 32 ∧ c ≠ 64 := by
  unfold pulses
  split_ifs with h1 h2 h3 <;> simp_all

/-- A level is low or high (R10). -/
theorem level_cases (v : Level) : v = 0 ∨ v = 1 := by
  have hv := v.isLt
  rcases (by omega : v.toNat = 0 ∨ v.toNat = 1) with h | h
  · exact .inl (BitVec.eq_of_toNat_eq (by simpa using h))
  · exact .inr (BitVec.eq_of_toNat_eq (by simpa using h))

theorem State.requireInit_of_init {s : State} (body : State → State) (h : s.regs.life = .init) :
    s.requireInit body = body s := if_pos h

theorem State.requireInit_of_not_init {s : State} (body : State → State) (h : s.regs.life ≠ .init) :
    s.requireInit body = s.raise .illegalState := if_neg h

theorem State.requireActive_of_active {s : State} (body : State → State) (h : s.regs.pwr = .active) :
    s.requireActive body = body s := if_pos h

theorem State.requireActive_of_not_active {s : State} (body : State → State) (h : s.regs.pwr ≠ .active) :
    s.requireActive body = s.raise .illegalState := if_neg h

/-- An acquisition that is granted gets the next handle. -/
theorem State.handle_of_grants {s : State} {barred : Bool} (h : s.grants barred = true) :
    s.handle barred = some ⟨s.world.handles⟩ := by simp [State.handle, h]

/-- An acquisition that is refused gets none. -/
theorem State.handle_of_refused {s : State} {barred : Bool} (h : s.grants barred = false) :
    s.handle barred = none := by simp [State.handle, h]

/-- INIT's last stage with the clock line refused (R131 line 11). -/
theorem State.claimClock_of_refused {s : State} (h : s.later.grants (s.later.holdsLine s.regs.cpin) = false) :
    s.claimClock = (s.later.requestedOutput s.regs.cpin 0).raise .lineUnavailable := by
  simp only [State.claimClock, State.requestOutput, State.later_regs, State.handle_of_refused h]

/-- INIT's last stage with the clock line granted (R131 lines 12 and 13). -/
theorem State.claimClock_of_granted {s : State} (h : s.later.grants (s.later.holdsLine s.regs.cpin) = true) :
    s.claimClock =
      { regs := { s.regs with hclk := some ⟨s.world.handles⟩, sckq := 0, pwr := .active, life := .init,
                              phase := .lowhold }
        world := (s.later.requestedOutput s.regs.cpin 0).world } := by
  simp only [State.claimClock, State.requestOutput, State.later_regs, State.handle_of_grants h]
  rfl

/-- INIT's second stage with the data line refused (R131 line 8). -/
theorem State.claimData_of_refused {s : State} (h : s.grants (s.holdsLine s.regs.dpin) = false) :
    s.claimData = (s.requestedInput s.regs.dpin).raise .lineUnavailable := by
  simp only [State.claimData, State.requestInput, State.handle_of_refused h]

/-- INIT's second stage with the data line granted (R131 line 9). -/
theorem State.claimData_of_granted {s : State} (h : s.grants (s.holdsLine s.regs.dpin) = true) :
    s.claimData = State.claimClock
      { regs := { s.regs with hdata := some ⟨s.world.handles⟩ }
        world := (s.requestedInput s.regs.dpin).world } := by
  simp only [State.claimData, State.requestInput, State.handle_of_grants h]
  rfl

/-- INIT's first stage with the controller refused (R131 line 5). -/
theorem State.claimController_of_refused {s : State} (h : s.grants false = false) :
    s.claimController = s.openedController.raise .hardwareUnavailable := by
  simp only [State.claimController, State.openController, State.handle_of_refused h]

/-- INIT's first stage with the controller opened (R131 line 6). -/
theorem State.claimController_of_granted {s : State} (h : s.grants false = true) :
    s.claimController = State.claimData
      { regs := { s.regs with hctrl := some ⟨s.world.handles⟩, life := .partlyInit }
        world := s.openedController.world } := by
  simp only [State.claimController, State.openController, State.handle_of_grants h]
  rfl

/-- The four ways INIT's calls can end, as they leave the registers and the history (R133): the controller refused, the
data line refused, the clock line refused, and success. -/
theorem State.claimController_cases (s : State) : ∃ time, s.world.now ≤ time ∧
    ((s.claimController.regs = { s.regs with rstat := .hardwareUnavailable, rdata := 0, phase := .resp } ∧
        s.claimController.world.hist =
          .respond .hardwareUnavailable 0 s.world.now :: .opened false :: s.world.hist ∧
        s.claimController.world.now = s.world.now) ∨
      (∃ h, s.claimController.regs = { s.regs with hctrl := some h, life := .partlyInit, rstat := .lineUnavailable,
                                                   rdata := 0, phase := .resp } ∧
        s.claimController.world.hist =
          .respond .lineUnavailable 0 s.world.now :: .reqIn s.regs.dpin false :: .opened true :: s.world.hist ∧
        s.claimController.world.now = s.world.now) ∨
      (∃ h h', s.claimController.regs = { s.regs with hctrl := some h, hdata := some h', life := .partlyInit,
                                                      rstat := .lineUnavailable, rdata := 0, phase := .resp } ∧
        s.claimController.world.hist = .respond .lineUnavailable 0 time :: .reqOut s.regs.cpin 0 false time ::
          .reqIn s.regs.dpin true :: .opened true :: s.world.hist ∧
        s.claimController.world.now = time) ∨
      (∃ h h' h'', s.claimController.regs = { s.regs with hctrl := some h, hdata := some h', hclk := some h'',
                                                          sckq := 0, pwr := .active, life := .init,
                                                          phase := .lowhold } ∧
        s.claimController.world.hist = .reqOut s.regs.cpin 0 true time ::
          .reqIn s.regs.dpin true :: .opened true :: s.world.hist ∧
        s.claimController.world.now = time)) := by
  refine ⟨s.world.now + s.slack, Nat.le_add_right _ _, ?_⟩
  cases h0 : s.grants false with
  | false =>
    rw [State.claimController_of_refused h0]
    exact .inl ⟨rfl, by simp [h0], rfl⟩
  | true =>
    rw [State.claimController_of_granted h0]
    generalize hs1 : State.mk { s.regs with hctrl := some ⟨s.world.handles⟩, life := .partlyInit }
      s.openedController.world = s1
    have hr1 : s1.regs = { s.regs with hctrl := some ⟨s.world.handles⟩, life := .partlyInit } := by rw [← hs1]
    have hw1 : s1.world.now = s.world.now ∧ s1.slack = s.slack ∧ s1.world.hist = .opened true :: s.world.hist := by
      rw [← hs1]; exact ⟨rfl, rfl, by simp [h0]⟩
    obtain ⟨hn1, hk1, hh1⟩ := hw1
    have hd1 : s1.regs.dpin = s.regs.dpin := by rw [hr1]
    cases h1 : s1.grants (s1.holdsLine s1.regs.dpin) with
    | false =>
      rw [State.claimData_of_refused h1]
      exact .inr (.inl ⟨⟨s.world.handles⟩, by simp [hr1], by simp [hd1 ▸ h1, hn1, hh1, hd1], by simp [hn1]⟩)
    | true =>
      rw [State.claimData_of_granted h1]
      generalize hs2 : State.mk { s1.regs with hdata := some ⟨s1.world.handles⟩ }
        (s1.requestedInput s1.regs.dpin).world = s2
      have hr2 : s2.regs = { s1.regs with hdata := some ⟨s1.world.handles⟩ } := by rw [← hs2]
      have hw2 : s2.world.now = s1.world.now ∧ s2.slack = s1.slack ∧
          s2.world.hist = .reqIn s.regs.dpin true :: s1.world.hist := by
        rw [← hs2]; exact ⟨rfl, rfl, by simp [hd1 ▸ h1, hd1]⟩
      obtain ⟨hn2, hk2, hh2⟩ := hw2
      have hc2 : s2.regs.cpin = s.regs.cpin := by rw [hr2, hr1]
      cases h2 : s2.later.grants (s2.later.holdsLine s2.regs.cpin) with
      | false =>
        rw [State.claimClock_of_refused h2]
        exact .inr (.inr (.inl ⟨⟨s.world.handles⟩, ⟨s1.world.handles⟩, by simp [hr1, hr2],
          by simp [hc2 ▸ h2, hn1, hk1, hh1, hn2, hk2, hh2, hc2], by simp [hn1, hk1, hn2, hk2]⟩))
      | true =>
        rw [State.claimClock_of_granted h2]
        exact .inr (.inr (.inr ⟨⟨s.world.handles⟩, ⟨s1.world.handles⟩, ⟨s2.world.handles⟩, by simp [hr1, hr2],
          by simp [hc2 ▸ h2, hn1, hk1, hh1, hn2, hk2, hh2, hc2], by simp [hn1, hk1, hn2, hk2]⟩))

/-- INIT from Uninit with a supported gain writes the configuration and makes its calls (R131 lines 3 and 4). -/
theorem execInit_of_supported {s : State} {d c : Pin} {g : BitVec 8} {p : BitVec 2} (hl : s.regs.life = .uninit)
    (hp : pulses g.toNat = some p) : execInit d c g s = .next (State.claimController
      { regs := { s.regs with cmdq := opInit, dpin := d, cpin := c, gain := p }, world := s.world }) := by
  simp only [execInit, State.latch_regs, ne_eq, hl, not_true, if_false, hp]
  rfl

@[simp] theorem State.releaseClk_regs (s : State) : s.releaseClk.regs = { s.regs with hclk := none } := by
  unfold State.releaseClk
  split
  · rfl
  · rename_i h
    simp only [Bool.not_eq_true, Option.isSome_eq_false_iff, Option.isNone_iff_eq_none] at h
    simp [← h]

@[simp] theorem State.releaseClk_world (s : State) : s.releaseClk.world =
    { s.world with hist := (if s.regs.hclk.isSome then [.released .clk] else []) ++ s.world.hist } := by
  unfold State.releaseClk
  split <;> simp

@[simp] theorem State.releaseData_regs (s : State) : s.releaseData.regs = { s.regs with hdata := none } := by
  unfold State.releaseData
  split
  · rfl
  · rename_i h
    simp only [Bool.not_eq_true, Option.isSome_eq_false_iff, Option.isNone_iff_eq_none] at h
    simp [← h]

@[simp] theorem State.releaseData_world (s : State) : s.releaseData.world =
    { s.world with hist := (if s.regs.hdata.isSome then [.released .data] else []) ++ s.world.hist } := by
  unfold State.releaseData
  split <;> simp

@[simp] theorem State.closeController_regs (s : State) :
    s.closeController.regs = { s.regs with hctrl := none } := by
  unfold State.closeController
  split
  · rfl
  · rename_i h
    simp only [Bool.not_eq_true, Option.isSome_eq_false_iff, Option.isNone_iff_eq_none] at h
    simp [← h]

@[simp] theorem State.closeController_world (s : State) : s.closeController.world =
    { s.world with hist := (if s.regs.hctrl.isSome then [.closed] else []) ++ s.world.hist } := by
  unfold State.closeController
  split <;> simp

/-- An asserted reset is the whole step (R253). -/
theorem step_of_rst {s : State} (h : s.pins.rst = true) : step s = .next s.pinsUsed.rstStep := by
  simp [step, engineStep, h]

/-- Without a reset the step is that of the phase (R200). -/
theorem step_of_not_rst {s : State} (h : s.pins.rst = false) : step s = phaseStep s.pins s.pinsUsed := by
  simp [step, engineStep, h]

/-- The cases of a step: reset, or the phase's own (R200). -/
theorem step_cases {s : State} {o : Host.Outcome State Fault Refusal} (h : step s = o) :
    (s.pins.rst = true ∧ o = .next s.pinsUsed.rstStep) ∨
    (s.pins.rst = false ∧ o = phaseStep s.pins s.pinsUsed) := by
  cases hr : s.pins.rst with
  | true => exact .inl ⟨rfl, by rw [← h, step_of_rst hr]⟩
  | false => exact .inr ⟨rfl, by rw [← h, step_of_not_rst hr]⟩

/-- The cases of the step in `IDLE`: waiting, a command, or a word that is none (R204). -/
theorem stepIdle_cases (pins : HostPins) (s : State) :
    (pins.cmd = none ∧ stepIdle pins s = .next s) ∨
    (∃ w i, pins.cmd = some w ∧ decode w = .ok i ∧ stepIdle pins s = exec i (s.accept w)) ∨
    (∃ w e, pins.cmd = some w ∧ decode w = .error e ∧ stepIdle pins s = .next ((s.accept w).rejectWord w)) := by
  unfold stepIdle runWord
  split
  · next h => exact .inl ⟨h, rfl⟩
  · next w h =>
    cases hd : decode w with
    | ok i => exact .inr (.inl ⟨w, i, h, hd, rfl⟩)
    | error e => exact .inr (.inr ⟨w, e, h, hd, rfl⟩)

end Sys2Proof.Machine
end

