-- ==== Sys2Proof/Laws/Steps.lean ====
section
/-! SUPPORT. What each internal step of the sequencer does, one lemma a step: the next registers and world in full, with the
bounds on the time stamps (R203). Later proofs cite these and unfold no step. -/

namespace Sys2Proof.Machine

variable (s : State)

/-- One bit shifted in, as a number (R163, R169 (a)). -/
theorem shiftIn_toNat (r : Raw) (b : Level) : (shiftIn r b).toNat = (2 * r.toNat + b.toNat) % 2 ^ 24 := by
  have hb := b.isLt
  have hr := r.isLt
  simp only [shiftIn, BitVec.toNat_append, BitVec.extractLsb'_toNat, Nat.shiftRight_zero]
  rw [← Nat.shiftLeft_add_eq_or_of_lt hb, Nat.shiftLeft_eq]
  omega

/-- T2 (R203). -/
theorem stepPollwait_next : ∃ time, s.world.now ≤ time ∧ (∀ last, s.lastT = some last → last + s.regs.polliv.toNat ≤ time) ∧
    stepPollwait s = .next
      { regs := { s.regs with phase := .poll }
        world := { s.world with now := time, slacks := s.world.slacks.rest } } :=
  ⟨_, s.now_le_delay _, fun _ h => State.lastT_add_le_delay h, rfl⟩

/-- T3 (R203). -/
theorem stepPre_next : ∃ time, s.world.now ≤ time ∧ (∀ last, s.lastT = some last → last + tRdySckMin ≤ time) ∧
    stepPre s = .next
      { regs := { s.regs with shreg := 0, bitcnt := 0, sckq := 1, phase := .shHigh }
        world := { s.world with now := time, slacks := s.world.slacks.rest, hist := .set 1 time :: s.world.hist } } :=
  ⟨_, s.now_le_delay _, fun _ h => State.lastT_add_le_delay h, rfl⟩

/-- T4 (R203, R71). -/
theorem stepShHigh_next : ∃ sample fall, s.world.now ≤ sample ∧ sample ≤ fall ∧
    (∀ rise, s.lastT = some rise → rise + tHighMin ≤ sample ∧ (s.world.now ≤ rise + tHighMax → fall ≤ rise + tHighMax)) ∧
    stepShHigh s = .next
      { regs := { s.regs with shreg := shiftIn s.regs.shreg s.dout, bitcnt := s.regs.bitcnt + 1, sckq := 0,
                              phase := .shLow }
        world := { s.world with gets := s.world.gets.rest, slacks := s.world.slacks.rest.rest, now := fall,
                                hist := .set 0 fall :: .get s.dout sample :: s.world.hist } } := by
  unfold stepShHigh
  cases hl : s.lastT with
  | none => exact ⟨_, _, s.now_le_later, State.now_le_later _, by simp, rfl⟩
  | some rise =>
    refine ⟨_, _, s.now_le_holdHigh (some rise), State.now_le_holdHigh (some rise) _, ?_, rfl⟩
    intro r hr
    cases hr
    exact ⟨State.edge_add_le_holdHigh rise s, fun hn =>
      State.holdHigh_le_edge_add (State.holdHigh_le_edge_add hn)⟩

/-- T5a (R203). -/
theorem stepShLow_next_bit (h : s.regs.bitcnt.toNat < 24) :
    ∃ time, s.world.now ≤ time ∧ (∀ low, s.lastT = some low → low + tLowMin ≤ time) ∧
    stepShLow s = .next
      { regs := { s.regs with sckq := 1, phase := .shHigh }
        world := { s.world with now := time, slacks := s.world.slacks.rest, hist := .set 1 time :: s.world.hist } } := by
  refine ⟨_, s.now_le_delay tLowMin, fun _ h => State.lastT_add_le_delay h, ?_⟩
  have hb : s.regs.bitcnt < 24 := by simpa [BitVec.lt_def] using h
  simp only [stepShLow, State.delay_regs, hb, if_true]
  rfl

/-- T5b (R203, R164, R165). -/
theorem stepShLow_sample (h : s.regs.bitcnt = 24) :
    ∃ time, s.world.now ≤ time ∧ (∀ low, s.lastT = some low → low + tLowMin ≤ time) ∧
    stepShLow s = .next
      { regs := { s.regs with result := sext32 s.regs.shreg, gpcnt := s.regs.gain, sckq := 1, phase := .gpHigh }
        world := { s.world with now := time, slacks := s.world.slacks.rest, hist := .set 1 time :: s.world.hist } } := by
  refine ⟨_, s.now_le_delay tLowMin, fun _ h => State.lastT_add_le_delay h, ?_⟩
  have hb : ¬ s.regs.bitcnt < 24 := by simp [h]
  simp only [stepShLow, State.delay_regs, hb, if_false]
  exact if_pos h

/-- T6 (R203, R71). -/
theorem stepGpHigh_next : ∃ fall, s.world.now ≤ fall ∧
    (∀ rise, s.lastT = some rise → rise + tHighMin ≤ fall ∧ (s.world.now ≤ rise + tHighMax → fall ≤ rise + tHighMax)) ∧
    stepGpHigh s = .next
      { regs := { s.regs with sckq := 0, phase := .gpLow }
        world := { s.world with now := fall, slacks := s.world.slacks.rest, hist := .set 0 fall :: s.world.hist } } := by
  unfold stepGpHigh
  cases hl : s.lastT with
  | none => exact ⟨_, s.now_le_later, by simp, rfl⟩
  | some rise =>
    refine ⟨_, s.now_le_holdHigh (some rise), ?_, rfl⟩
    intro r hr
    cases hr
    exact ⟨State.edge_add_le_holdHigh rise s, fun hn => State.holdHigh_le_edge_add hn⟩

/-- T7a (R203). -/
theorem stepGpLow_next_pulse (h : 1 < s.regs.gpcnt.toNat) :
    ∃ time, s.world.now ≤ time ∧ (∀ low, s.lastT = some low → low + tLowMin ≤ time) ∧
    stepGpLow s = .next
      { regs := { s.regs with gpcnt := s.regs.gpcnt - 1, sckq := 1, phase := .gpHigh }
        world := { s.world with now := time, slacks := s.world.slacks.rest, hist := .set 1 time :: s.world.hist } } := by
  refine ⟨_, s.now_le_delay tLowMin, fun _ h => State.lastT_add_le_delay h, ?_⟩
  have hg : s.regs.gpcnt > 1 := by simpa [BitVec.lt_def] using h
  simp only [stepGpLow, State.delay_regs, hg, if_true]
  rfl

/-- T7b (R203). -/
theorem stepGpLow_last (h : s.regs.gpcnt = 1) :
    ∃ time, s.world.now ≤ time ∧ (∀ low, s.lastT = some low → low + tLowMin ≤ time) ∧
    stepGpLow s = .next
      { regs := { s.regs with gpcnt := 0, rstat := .ok, rdata := s.regs.result, phase := .resp }
        world := { s.world with now := time, slacks := s.world.slacks.rest,
                                hist := .respond .ok s.regs.result time :: s.world.hist } } := by
  refine ⟨_, s.now_le_delay tLowMin, fun _ h => State.lastT_add_le_delay h, ?_⟩
  have hg : ¬ s.regs.gpcnt > 1 := by simp [h]
  simp only [stepGpLow, State.delay_regs, hg, if_false]
  exact if_pos h

/-- T8 (R203). -/
theorem stepPdLow_next : ∃ time, s.world.now ≤ time ∧ (∀ low, s.lastT = some low → low + tLowMin ≤ time) ∧
    stepPdLow s = .next
      { regs := { s.regs with sckq := 1, phase := .pdHigh }
        world := { s.world with now := time, slacks := s.world.slacks.rest, hist := .set 1 time :: s.world.hist } } :=
  ⟨_, s.now_le_delay _, fun _ h => State.lastT_add_le_delay h, rfl⟩

/-- T9 (R203). -/
theorem stepPdHigh_next : ∃ time, s.world.now ≤ time ∧ (∀ rise, s.lastT = some rise → rise + tPdMin ≤ time) ∧
    stepPdHigh s = .next
      { regs := { s.regs with pwr := .poweredDown, rstat := .ok, rdata := 0, phase := .resp }
        world := { s.world with now := time, slacks := s.world.slacks.rest,
                                hist := .respond .ok 0 time :: s.world.hist } } :=
  ⟨_, s.now_le_delay _, fun _ h => State.lastT_add_le_delay h, rfl⟩

/-- T10 (R203). -/
theorem stepLowhold_next : ∃ time, s.world.now ≤ time ∧ (∀ low, s.lastT = some low → low + tLowMin ≤ time) ∧
    stepLowhold s = .next
      { regs := { s.regs with rstat := .ok, rdata := 0, phase := .resp }
        world := { s.world with now := time, slacks := s.world.slacks.rest,
                                hist := .respond .ok 0 time :: s.world.hist } } :=
  ⟨_, s.now_le_delay _, fun _ h => State.lastT_add_le_delay h, rfl⟩

/-- T1, its cases by the command and the level (R203). -/
theorem stepPoll_eq : stepPoll s =
    if s.regs.cmdq = opWaitready then
      if s.dout = 0 then .next (s.later.memRead.respond .ok 0) else .next (s.later.memRead.goto .pollwait)
    else if s.regs.cmdq = opRead then
      if s.dout = 0 then .next (s.later.memRead.goto .pre) else .next (s.later.memRead.goto .pollwait)
    else if s.regs.cmdq = opTryread then
      if s.dout = 0 then .next (s.later.memRead.goto .pre) else .next (s.later.memRead.raise .notReady)
    else .fault .pollWithoutWait := rfl

/-- T1 with the line low: a wait ends, a read goes on (R203 T1a, T1b). -/
theorem stepPoll_low (hv : s.dout = 0) : ∃ time, s.world.now ≤ time ∧
    (s.regs.cmdq = opWaitready → stepPoll s = .next
      { regs := { s.regs with rstat := .ok, rdata := 0, phase := .resp }
        world := { s.world with gets := s.world.gets.rest, slacks := s.world.slacks.rest, now := time,
                                hist := .respond .ok 0 time :: .get 0 time :: s.world.hist } }) ∧
    (s.regs.cmdq = opRead ∨ s.regs.cmdq = opTryread → stepPoll s = .next
      { regs := { s.regs with phase := .pre }
        world := { s.world with gets := s.world.gets.rest, slacks := s.world.slacks.rest, now := time,
                                hist := .get 0 time :: s.world.hist } }) := by
  have hl : s.later.dout = 0 := hv
  rw [stepPoll_eq]
  refine ⟨s.later.world.now, s.now_le_later, fun hc => ?_, fun hc => ?_⟩
  · rw [if_pos hc, if_pos hv]
    simp only [State.respond, State.memRead, hl]
    rfl
  · have hw : ¬ s.regs.cmdq = opWaitready := by rcases hc with hc | hc <;> rw [hc] <;> decide
    have hg : s.later.memRead.goto .pre =
        { regs := { s.regs with phase := .pre }
          world := { s.world with gets := s.world.gets.rest, slacks := s.world.slacks.rest, now := s.later.world.now,
                                  hist := .get 0 s.later.world.now :: s.world.hist } } := by
      simp only [State.goto, State.memRead, hl]
      rfl
    rcases hc with hc | hc
    · rw [if_neg hw, if_pos hc, if_pos hv, hg]
    · have hr : ¬ s.regs.cmdq = opRead := by rw [hc]; decide
      rw [if_neg hw, if_neg hr, if_pos hc, if_pos hv, hg]

/-- T1 with the line high: WAITREADY and READ wait, TRYREAD ends with `NotReady` (R203 T1c, T1d). -/
theorem stepPoll_high (hv : s.dout = 1) : ∃ time, s.world.now ≤ time ∧
    (s.regs.cmdq = opWaitready ∨ s.regs.cmdq = opRead → stepPoll s = .next
      { regs := { s.regs with phase := .pollwait }
        world := { s.world with gets := s.world.gets.rest, slacks := s.world.slacks.rest, now := time,
                                hist := .get 1 time :: s.world.hist } }) ∧
    (s.regs.cmdq = opTryread → stepPoll s = .next
      { regs := { s.regs with rstat := .notReady, rdata := 0, phase := .resp }
        world := { s.world with gets := s.world.gets.rest, slacks := s.world.slacks.rest, now := time,
                                hist := .respond .notReady 0 time :: .get 1 time :: s.world.hist } }) := by
  have hl : s.later.dout = 1 := hv
  have h10 : ¬ s.dout = 0 := by rw [hv]; decide
  rw [stepPoll_eq]
  refine ⟨s.later.world.now, s.now_le_later, fun hc => ?_, fun hc => ?_⟩
  · have hg : s.later.memRead.goto .pollwait =
        { regs := { s.regs with phase := .pollwait }
          world := { s.world with gets := s.world.gets.rest, slacks := s.world.slacks.rest, now := s.later.world.now,
                                  hist := .get 1 s.later.world.now :: s.world.hist } } := by
      simp only [State.goto, State.memRead, hl]
      rfl
    rcases hc with hc | hc
    · rw [if_pos hc, if_neg h10, hg]
    · have hw : ¬ s.regs.cmdq = opWaitready := by rw [hc]; decide
      rw [if_neg hw, if_pos hc, if_neg h10, hg]
  · have hw : ¬ s.regs.cmdq = opWaitready := by rw [hc]; decide
    have hr : ¬ s.regs.cmdq = opRead := by rw [hc]; decide
    rw [if_neg hw, if_neg hr, if_pos hc, if_neg h10]
    simp only [State.raise, State.respond, State.memRead, hl]
    rfl

/-! The step of the machine in each phase, without a reset (R200). -/

variable {s}

theorem step_idle (h : s.pins.rst = false) (hp : s.regs.phase = .idle) : step s = stepIdle s.pins s.pinsUsed := by
  rw [step_of_not_rst h]; simp only [phaseStep, State.pinsUsed_regs, hp]

theorem step_poll (h : s.pins.rst = false) (hp : s.regs.phase = .poll) : step s = stepPoll s.pinsUsed := by
  rw [step_of_not_rst h]; simp only [phaseStep, State.pinsUsed_regs, hp]

theorem step_pollwait (h : s.pins.rst = false) (hp : s.regs.phase = .pollwait) : step s = stepPollwait s.pinsUsed := by
  rw [step_of_not_rst h]; simp only [phaseStep, State.pinsUsed_regs, hp]

theorem step_pre (h : s.pins.rst = false) (hp : s.regs.phase = .pre) : step s = stepPre s.pinsUsed := by
  rw [step_of_not_rst h]; simp only [phaseStep, State.pinsUsed_regs, hp]

theorem step_shHigh (h : s.pins.rst = false) (hp : s.regs.phase = .shHigh) : step s = stepShHigh s.pinsUsed := by
  rw [step_of_not_rst h]; simp only [phaseStep, State.pinsUsed_regs, hp]

theorem step_shLow (h : s.pins.rst = false) (hp : s.regs.phase = .shLow) : step s = stepShLow s.pinsUsed := by
  rw [step_of_not_rst h]; simp only [phaseStep, State.pinsUsed_regs, hp]

theorem step_gpHigh (h : s.pins.rst = false) (hp : s.regs.phase = .gpHigh) : step s = stepGpHigh s.pinsUsed := by
  rw [step_of_not_rst h]; simp only [phaseStep, State.pinsUsed_regs, hp]

theorem step_gpLow (h : s.pins.rst = false) (hp : s.regs.phase = .gpLow) : step s = stepGpLow s.pinsUsed := by
  rw [step_of_not_rst h]; simp only [phaseStep, State.pinsUsed_regs, hp]

theorem step_pdLow (h : s.pins.rst = false) (hp : s.regs.phase = .pdLow) : step s = stepPdLow s.pinsUsed := by
  rw [step_of_not_rst h]; simp only [phaseStep, State.pinsUsed_regs, hp]

theorem step_pdHigh (h : s.pins.rst = false) (hp : s.regs.phase = .pdHigh) : step s = stepPdHigh s.pinsUsed := by
  rw [step_of_not_rst h]; simp only [phaseStep, State.pinsUsed_regs, hp]

theorem step_lowhold (h : s.pins.rst = false) (hp : s.regs.phase = .lowhold) : step s = stepLowhold s.pinsUsed := by
  rw [step_of_not_rst h]; simp only [phaseStep, State.pinsUsed_regs, hp]

theorem step_resp (h : s.pins.rst = false) (hp : s.regs.phase = .resp) : step s = stepResp s.pins s.pinsUsed := by
  rw [step_of_not_rst h]; simp only [phaseStep, State.pinsUsed_regs, hp]

end Sys2Proof.Machine
end

