-- ==== Sys2Proof/Laws/Moves.lean ====
section
/-! SUPPORT. Everything a step can do, said once: the rows of R203 and R204 as one relation between the registers, the history and
the time before a step and after it, and the proof that every step is one of them. A proof about every step takes the
rows one by one and unfolds no operation. -/

namespace Sys2Proof.Machine

/-- What the accept step of a command can do to the registers, with the events it appends (newest first) and the time at
which it ends; the step's own time is not before `now` (R204). -/
inductive CommandMoves (r : Regs) (v : Level) (now : Nat) : Instr → Regs → List Event → Nat → Prop where
  /-- R244: the command is not allowed. -/
  | illegal (i : Instr) (h : ¬ r.allows i) : CommandMoves r v now i
      { r with cmdq := i.opcode, rstat := .illegalState, rdata := 0, phase := .resp }
      [.respond .illegalState 0 now] now
  /-- R243: INIT's gain is not supported. -/
  | initGain (d c : Pin) (g : BitVec 8) (h : r.life = .uninit) (hp : pulses g.toNat = none) :
      CommandMoves r v now (.init d c g)
        { r with cmdq := opInit, rstat := .invalidGain, rdata := 0, phase := .resp }
        [.respond .invalidGain 0 now] now
  /-- R133, line 5: the controller is refused. -/
  | initOpen (d c : Pin) (g : BitVec 8) (p : BitVec 2) (h : r.life = .uninit) (hp : pulses g.toNat = some p) :
      CommandMoves r v now (.init d c g)
        { r with cmdq := opInit, dpin := d, cpin := c, gain := p, rstat := .hardwareUnavailable, rdata := 0,
                 phase := .resp }
        [.respond .hardwareUnavailable 0 now, .opened false] now
  /-- R133, line 8: the data line is refused. -/
  | initData (d c : Pin) (g : BitVec 8) (p : BitVec 2) (h0 : Handle) (h : r.life = .uninit)
      (hp : pulses g.toNat = some p) :
      CommandMoves r v now (.init d c g)
        { r with cmdq := opInit, dpin := d, cpin := c, gain := p, hctrl := some h0, life := .partlyInit,
                 rstat := .lineUnavailable, rdata := 0, phase := .resp }
        [.respond .lineUnavailable 0 now, .reqIn d false, .opened true] now
  /-- R133, line 11: the clock line is refused. -/
  | initClock (d c : Pin) (g : BitVec 8) (p : BitVec 2) (h0 h1 : Handle) (time : Nat) (h : r.life = .uninit)
      (hp : pulses g.toNat = some p) (hn : now ≤ time) :
      CommandMoves r v now (.init d c g)
        { r with cmdq := opInit, dpin := d, cpin := c, gain := p, hctrl := some h0, hdata := some h1,
                 life := .partlyInit, rstat := .lineUnavailable, rdata := 0, phase := .resp }
        [.respond .lineUnavailable 0 time, .reqOut c 0 false time, .reqIn d true, .opened true] time
  /-- R131: INIT succeeds. -/
  | initDone (d c : Pin) (g : BitVec 8) (p : BitVec 2) (h0 h1 h2 : Handle) (time : Nat) (h : r.life = .uninit)
      (hp : pulses g.toNat = some p) (hn : now ≤ time) :
      CommandMoves r v now (.init d c g)
        { r with cmdq := opInit, dpin := d, cpin := c, gain := p, hctrl := some h0, hdata := some h1,
                 hclk := some h2, sckq := 0, pwr := .active, life := .init, phase := .lowhold }
        [.reqOut c 0 true time, .reqIn d true, .opened true] time
  /-- R137. -/
  | teardown : CommandMoves r v now .teardown
      { r with cmdq := opTeardown, hclk := none, hdata := none, hctrl := none, life := .uninit, rstat := .ok,
               rdata := 0, phase := .resp }
      (.respond .ok 0 now :: ((if r.hctrl.isSome then [.closed] else []) ++
        (if r.hdata.isSome then [.released .data] else []) ++
        (if r.hclk.isSome then [.released .clk] else []))) now
  /-- R151. -/
  | isready (time : Nat) (h : r.life = .init) (hn : now ≤ time) : CommandMoves r v now .isready
      { r with cmdq := opIsready, rstat := .ok, rdata := readyDatum v, phase := .resp }
      [.respond .ok (readyDatum v) time, .get v time] time
  /-- R153. -/
  | waitready (iv : BitVec 28) (h : r.life = .init) : CommandMoves r v now (.waitready iv)
      { r with cmdq := opWaitready, polliv := pollNanos iv, phase := .poll } [] now
  /-- R161. -/
  | read (h : r.life = .init) (ha : r.pwr = .active) : CommandMoves r v now .read
      { r with cmdq := opRead, polliv := tPollRead, phase := .poll } [] now
  /-- R168. -/
  | tryread (h : r.life = .init) (ha : r.pwr = .active) : CommandMoves r v now .tryread
      { r with cmdq := opTryread, phase := .poll } [] now
  /-- R243: SETGAIN's code is not supported. -/
  | setgainBad (code : BitVec 28) (h : r.life = .init) (hp : pulses code.toNat = none) :
      CommandMoves r v now (.setgain code)
        { r with cmdq := opSetgain, rstat := .invalidGain, rdata := 0, phase := .resp }
        [.respond .invalidGain 0 now] now
  /-- R181. -/
  | setgain (code : BitVec 28) (p : BitVec 2) (h : r.life = .init) (hp : pulses code.toNat = some p) :
      CommandMoves r v now (.setgain code)
        { r with cmdq := opSetgain, gain := p, rstat := .ok, rdata := 0, phase := .resp } [.respond .ok 0 now] now
  /-- R191. -/
  | pwrdown (h : r.life = .init) : CommandMoves r v now .pwrdown
      { r with cmdq := opPwrdown, sckq := 0, phase := .pdLow } [.set 0 now] now
  /-- R194. -/
  | pwrup (h : r.life = .init) : CommandMoves r v now .pwrup
      { r with cmdq := opPwrup, sckq := 0, pwr := .active, phase := .lowhold } [.set 0 now] now

/-- What has to be shown of a command's accept step. -/
def ExecMoves (i : Instr) (s : State) : Prop := ∃ t es, exec i s = .next t ∧ t.world.hist = es ++ s.world.hist ∧
  CommandMoves s.regs s.dout s.world.now i t.regs es t.world.now

/-- A command answered `IllegalState` (R244). -/
theorem ExecMoves.illegal {i : Instr} {s : State} (h : ¬ s.regs.allows i)
    (e : exec i s = .next ((s.latch i.opcode).raise .illegalState)) : ExecMoves i s :=
  ⟨_, [_], e, rfl, .illegal i h⟩

/-- INIT (R131 to R135). -/
theorem ExecMoves.init (d c : Pin) (g : BitVec 8) (s : State) : ExecMoves (.init d c g) s := by
  by_cases hl : s.regs.life = .uninit
  · cases hp : pulses g.toNat with
    | none =>
      have e : exec (.init d c g) s = .next ((s.latch opInit).raise .invalidGain) := by
        simp only [exec, execInit, State.latch_regs, ne_eq, hl, not_true, if_false, hp]
      exact ⟨_, [_], e, rfl, .initGain d c g hl hp⟩
    | some p =>
      have e : exec (.init d c g) s = _ := execInit_of_supported hl hp
      obtain ⟨time, hn, h | ⟨h0, h⟩ | ⟨h0, h1, h⟩ | ⟨h0, h1, h2, h⟩⟩ := State.claimController_cases
        { regs := { s.regs with cmdq := opInit, dpin := d, cpin := c, gain := p }, world := s.world }
      · exact ⟨_, [_, _], e, h.2.1, by rw [h.1, h.2.2]; exact .initOpen d c g p hl hp⟩
      · exact ⟨_, [_, _, _], e, h.2.1, by rw [h.1, h.2.2]; exact .initData d c g p h0 hl hp⟩
      · exact ⟨_, [_, _, _, _], e, h.2.1, by rw [h.1, h.2.2]; exact .initClock d c g p h0 h1 time hl hp hn⟩
      · exact ⟨_, [_, _, _], e, h.2.1, by rw [h.1, h.2.2]; exact .initDone d c g p h0 h1 h2 time hl hp hn⟩
  · refine .illegal hl ?_
    simp only [exec, execInit, State.latch_regs, ne_eq, hl, not_false_eq_true, if_true, Instr.opcode, opInit]

/-- TEARDOWN (R137). -/
theorem ExecMoves.teardown (s : State) : ExecMoves .teardown s := by
  refine ⟨_, .respond .ok 0 s.world.now :: ((if s.regs.hctrl.isSome then [.closed] else []) ++
    (if s.regs.hdata.isSome then [.released .data] else []) ++
    (if s.regs.hclk.isSome then [.released .clk] else [])), rfl, ?_, ?_⟩
  · simp
    rfl
  · simpa using CommandMoves.teardown

/-- Every command's accept step has a next state, and it is one of its rows (R201, R204). -/
theorem exec_moves (i : Instr) (s : State) : ExecMoves i s := by
  cases i with
  | init d c g => exact .init d c g s
  | teardown => exact .teardown s
  | isready =>
    by_cases hl : s.regs.life = .init
    · exact ⟨_, [_, _], congrArg Host.Outcome.next (if_pos hl), rfl, .isready _ hl s.now_le_later⟩
    · exact .illegal hl (congrArg Host.Outcome.next (if_neg hl))
  | waitready iv =>
    by_cases hl : s.regs.life = .init
    · exact ⟨_, [], congrArg Host.Outcome.next (if_pos hl), rfl, .waitready iv hl⟩
    · exact .illegal hl (congrArg Host.Outcome.next (if_neg hl))
  | read =>
    by_cases hl : s.regs.life = .init
    · by_cases ha : s.regs.pwr = .active
      · exact ⟨_, [], congrArg Host.Outcome.next ((if_pos hl).trans (if_pos ha)), rfl, .read hl ha⟩
      · exact .illegal (fun h => ha h.2) (congrArg Host.Outcome.next ((if_pos hl).trans (if_neg ha)))
    · exact .illegal (fun h => hl h.1) (congrArg Host.Outcome.next (if_neg hl))
  | tryread =>
    by_cases hl : s.regs.life = .init
    · by_cases ha : s.regs.pwr = .active
      · exact ⟨_, [], congrArg Host.Outcome.next ((if_pos hl).trans (if_pos ha)), rfl, .tryread hl ha⟩
      · exact .illegal (fun h => ha h.2) (congrArg Host.Outcome.next ((if_pos hl).trans (if_neg ha)))
    · exact .illegal (fun h => hl h.1) (congrArg Host.Outcome.next (if_neg hl))
  | setgain code =>
    by_cases hl : s.regs.life = .init
    · cases hp : pulses code.toNat with
      | none =>
        have e : exec (.setgain code) s = .next ((s.latch opSetgain).raise .invalidGain) := by
          simp only [exec, execSetgain, State.requireInit, State.latch_regs, hl, if_true, hp]
        exact ⟨_, [_], e, rfl, .setgainBad code hl hp⟩
      | some p =>
        have e : exec (.setgain code) s = .next (State.respond .ok 0
            { s with regs := { s.regs with cmdq := opSetgain, gain := p } }) := by
          simp only [exec, execSetgain, State.requireInit, State.latch_regs, hl, if_true, hp]
          rfl
        exact ⟨_, [_], e, rfl, .setgain code p hl hp⟩
    · exact .illegal hl (congrArg Host.Outcome.next (if_neg hl))
  | pwrdown =>
    by_cases hl : s.regs.life = .init
    · exact ⟨_, [_], congrArg Host.Outcome.next (if_pos hl), rfl, .pwrdown hl⟩
    · exact .illegal hl (congrArg Host.Outcome.next (if_neg hl))
  | pwrup =>
    by_cases hl : s.regs.life = .init
    · exact ⟨_, [_], congrArg Host.Outcome.next (if_pos hl), rfl, .pwrup hl⟩
    · exact .illegal hl (congrArg Host.Outcome.next (if_neg hl))

/-- What a step can do to the registers, with the events it appends (newest first) and the time at which it ends: the rows
of R203 and R204, and waiting (R206). -/
inductive Moves (s : State) : Regs → List Event → Nat → Prop where
  /-- T12 (R280). -/
  | rst (time : Nat) (h : s.pins.rst = true) (hn : s.world.now ≤ time) :
      Moves s (Regs.afterRst s.world.resets) [.reset time] time
  /-- Nothing to accept, or the response not taken (R206, R300). -/
  | wait (h : s.pins.rst = false) (hp : s.regs.phase = .idle ∨ s.regs.phase = .resp) : Moves s s.regs [] s.world.now
  /-- A word that is no command (R107). -/
  | invalid (w : Word) (e : DecodeError) (time : Nat) (h : s.pins.rst = false) (hp : s.regs.phase = .idle)
      (hw : s.pins.cmd = some w) (hd : decode w = .error e) (hn : s.world.now ≤ time) :
      Moves s { s.regs with cmdq := opcodeField w, rstat := .invalidCommand, rdata := 0, phase := .resp }
        [.respond .invalidCommand 0 time, .accepted w time] time
  /-- A command (R204). -/
  | command (w : Word) (i : Instr) (start : Nat) (r : Regs) (es : List Event) (time : Nat) (h : s.pins.rst = false)
      (hp : s.regs.phase = .idle) (hw : s.pins.cmd = some w) (hd : decode w = .ok i) (hn : s.world.now ≤ start)
      (hm : CommandMoves s.regs s.dout start i r es time) : Moves s r (es ++ [.accepted w start]) time
  /-- T11. -/
  | taken (h : s.pins.rst = false) (hp : s.regs.phase = .resp) (hr : s.pins.rspReady = true) :
      Moves s { s.regs with phase := .idle } [] s.world.now
  /-- T1a. -/
  | ready (time : Nat) (h : s.pins.rst = false) (hp : s.regs.phase = .poll) (hv : s.dout = 0)
      (hc : s.regs.cmdq = opWaitready) (hn : s.world.now ≤ time) :
      Moves s { s.regs with rstat := .ok, rdata := 0, phase := .resp } [.respond .ok 0 time, .get 0 time] time
  /-- T1b. -/
  | readyToRead (time : Nat) (h : s.pins.rst = false) (hp : s.regs.phase = .poll) (hv : s.dout = 0)
      (hc : s.regs.cmdq = opRead ∨ s.regs.cmdq = opTryread) (hn : s.world.now ≤ time) :
      Moves s { s.regs with phase := .pre } [.get 0 time] time
  /-- T1c. -/
  | notReady (time : Nat) (h : s.pins.rst = false) (hp : s.regs.phase = .poll) (hv : s.dout = 1)
      (hc : s.regs.cmdq = opWaitready ∨ s.regs.cmdq = opRead) (hn : s.world.now ≤ time) :
      Moves s { s.regs with phase := .pollwait } [.get 1 time] time
  /-- T1d. -/
  | notReadyToRead (time : Nat) (h : s.pins.rst = false) (hp : s.regs.phase = .poll) (hv : s.dout = 1)
      (hc : s.regs.cmdq = opTryread) (hn : s.world.now ≤ time) :
      Moves s { s.regs with rstat := .notReady, rdata := 0, phase := .resp }
        [.respond .notReady 0 time, .get 1 time] time
  /-- T2. -/
  | pollwait (time : Nat) (h : s.pins.rst = false) (hp : s.regs.phase = .pollwait) (hn : s.world.now ≤ time)
      (hd : ∀ last, s.lastT = some last → last + s.regs.polliv.toNat ≤ time) :
      Moves s { s.regs with phase := .poll } [] time
  /-- T3. -/
  | pre (time : Nat) (h : s.pins.rst = false) (hp : s.regs.phase = .pre) (hn : s.world.now ≤ time)
      (hd : ∀ last, s.lastT = some last → last + tRdySckMin ≤ time) :
      Moves s { s.regs with shreg := 0, bitcnt := 0, sckq := 1, phase := .shHigh } [.set 1 time] time
  /-- T4. -/
  | shHigh (sample fall : Nat) (h : s.pins.rst = false) (hp : s.regs.phase = .shHigh) (hn : s.world.now ≤ sample)
      (hs : sample ≤ fall) (hd : ∀ rise, s.lastT = some rise →
        rise + tHighMin ≤ sample ∧ (s.world.now ≤ rise + tHighMax → fall ≤ rise + tHighMax)) :
      Moves s { s.regs with shreg := shiftIn s.regs.shreg s.dout, bitcnt := s.regs.bitcnt + 1, sckq := 0,
                            phase := .shLow } [.set 0 fall, .get s.dout sample] fall
  /-- T5a. -/
  | shLowBit (time : Nat) (h : s.pins.rst = false) (hp : s.regs.phase = .shLow) (hb : s.regs.bitcnt.toNat < 24)
      (hn : s.world.now ≤ time) (hd : ∀ low, s.lastT = some low → low + tLowMin ≤ time) :
      Moves s { s.regs with sckq := 1, phase := .shHigh } [.set 1 time] time
  /-- T5b. -/
  | shLowSample (time : Nat) (h : s.pins.rst = false) (hp : s.regs.phase = .shLow) (hb : s.regs.bitcnt = 24)
      (hn : s.world.now ≤ time) (hd : ∀ low, s.lastT = some low → low + tLowMin ≤ time) :
      Moves s { s.regs with result := sext32 s.regs.shreg, gpcnt := s.regs.gain, sckq := 1, phase := .gpHigh }
        [.set 1 time] time
  /-- T6. -/
  | gpHigh (fall : Nat) (h : s.pins.rst = false) (hp : s.regs.phase = .gpHigh) (hn : s.world.now ≤ fall)
      (hd : ∀ rise, s.lastT = some rise →
        rise + tHighMin ≤ fall ∧ (s.world.now ≤ rise + tHighMax → fall ≤ rise + tHighMax)) :
      Moves s { s.regs with sckq := 0, phase := .gpLow } [.set 0 fall] fall
  /-- T7a. -/
  | gpLowPulse (time : Nat) (h : s.pins.rst = false) (hp : s.regs.phase = .gpLow) (hg : 1 < s.regs.gpcnt.toNat)
      (hn : s.world.now ≤ time) (hd : ∀ low, s.lastT = some low → low + tLowMin ≤ time) :
      Moves s { s.regs with gpcnt := s.regs.gpcnt - 1, sckq := 1, phase := .gpHigh } [.set 1 time] time
  /-- T7b. -/
  | gpLowLast (time : Nat) (h : s.pins.rst = false) (hp : s.regs.phase = .gpLow) (hg : s.regs.gpcnt = 1)
      (hn : s.world.now ≤ time) (hd : ∀ low, s.lastT = some low → low + tLowMin ≤ time) :
      Moves s { s.regs with gpcnt := 0, rstat := .ok, rdata := s.regs.result, phase := .resp }
        [.respond .ok s.regs.result time] time
  /-- T8. -/
  | pdLow (time : Nat) (h : s.pins.rst = false) (hp : s.regs.phase = .pdLow) (hn : s.world.now ≤ time)
      (hd : ∀ low, s.lastT = some low → low + tLowMin ≤ time) :
      Moves s { s.regs with sckq := 1, phase := .pdHigh } [.set 1 time] time
  /-- T9. -/
  | pdHigh (time : Nat) (h : s.pins.rst = false) (hp : s.regs.phase = .pdHigh) (hn : s.world.now ≤ time)
      (hd : ∀ rise, s.lastT = some rise → rise + tPdMin ≤ time) :
      Moves s { s.regs with pwr := .poweredDown, rstat := .ok, rdata := 0, phase := .resp } [.respond .ok 0 time] time
  /-- T10. -/
  | lowhold (time : Nat) (h : s.pins.rst = false) (hp : s.regs.phase = .lowhold) (hn : s.world.now ≤ time)
      (hd : ∀ low, s.lastT = some low → low + tLowMin ≤ time) :
      Moves s { s.regs with rstat := .ok, rdata := 0, phase := .resp } [.respond .ok 0 time] time

/-- What has to be shown of a step that answers `o`: it stops only where R203 has no row, and a next state is one of the
rows. -/
def StepMoves (s : State) (o : Host.Outcome State Fault Refusal) : Prop :=
  (∃ t es, o = .next t ∧ t.world.hist = es ++ s.world.hist ∧ Moves s t.regs es t.world.now) ∨
  (o = .fault .pollWithoutWait ∧ s.regs.phase = .poll ∧ s.regs.cmdq ≠ opWaitready ∧ s.regs.cmdq ≠ opRead ∧
    s.regs.cmdq ≠ opTryread) ∨
  (o = .fault .bitCountBeyondSample ∧ s.regs.phase = .shLow ∧ 24 < s.regs.bitcnt.toNat) ∨
  (o = .fault .gainCountExhausted ∧ s.regs.phase = .gpLow ∧ s.regs.gpcnt = 0)

/-- The step in `IDLE` (R204, R206). -/
theorem step_moves_idle {s : State} (h : s.pins.rst = false) (hp : s.regs.phase = .idle) : StepMoves s (step s) := by
  rw [step_idle h hp]
  rcases stepIdle_cases s.pins s.pinsUsed with ⟨hw, e⟩ | ⟨w, i, hw, hd, e⟩ | ⟨w, d, hw, hd, e⟩
  · exact .inl ⟨_, [], e, rfl, .wait h (.inl hp)⟩
  · obtain ⟨t, es, e', hh, hm⟩ := exec_moves i (s.pinsUsed.accept w)
    exact .inl ⟨t, es ++ [_], e.trans e', by rw [hh, List.append_assoc]; rfl,
      .command w i _ t.regs es _ h hp hw hd s.pinsUsed.now_le_later hm⟩
  · exact .inl ⟨_, [_, _], e, rfl, .invalid w d _ h hp hw hd s.pinsUsed.now_le_later⟩

/-- The step in `POLL` (R203 T1). -/
theorem step_moves_poll {s : State} (h : s.pins.rst = false) (hp : s.regs.phase = .poll) : StepMoves s (step s) := by
  rw [step_poll h hp]
  by_cases hw : s.regs.cmdq = opWaitready
  · rcases level_cases s.dout with hv | hv
    · obtain ⟨time, hn, h1, -⟩ := stepPoll_low s.pinsUsed hv
      exact .inl ⟨_, [_, _], h1 hw, rfl, .ready time h hp hv hw hn⟩
    · obtain ⟨time, hn, h1, -⟩ := stepPoll_high s.pinsUsed hv
      exact .inl ⟨_, [_], h1 (.inl hw), rfl, .notReady time h hp hv (.inl hw) hn⟩
  by_cases hr : s.regs.cmdq = opRead
  · rcases level_cases s.dout with hv | hv
    · obtain ⟨time, hn, -, h2⟩ := stepPoll_low s.pinsUsed hv
      exact .inl ⟨_, [_], h2 (.inl hr), rfl, .readyToRead time h hp hv (.inl hr) hn⟩
    · obtain ⟨time, hn, h1, -⟩ := stepPoll_high s.pinsUsed hv
      exact .inl ⟨_, [_], h1 (.inr hr), rfl, .notReady time h hp hv (.inr hr) hn⟩
  by_cases ht : s.regs.cmdq = opTryread
  · rcases level_cases s.dout with hv | hv
    · obtain ⟨time, hn, -, h2⟩ := stepPoll_low s.pinsUsed hv
      exact .inl ⟨_, [_], h2 (.inr ht), rfl, .readyToRead time h hp hv (.inr ht) hn⟩
    · obtain ⟨time, hn, -, h2⟩ := stepPoll_high s.pinsUsed hv
      exact .inl ⟨_, [_, _], h2 ht, rfl, .notReadyToRead time h hp hv ht hn⟩
  · refine .inr (.inl ⟨?_, hp, hw, hr, ht⟩)
    exact (stepPoll_eq _).trans ((if_neg hw).trans ((if_neg hr).trans (if_neg ht)))

/-- The step in `SH_LOW` (R203 T5). -/
theorem step_moves_shLow {s : State} (h : s.pins.rst = false) (hp : s.regs.phase = .shLow) :
    StepMoves s (step s) := by
  rw [step_shLow h hp]
  by_cases hb : s.regs.bitcnt.toNat < 24
  · obtain ⟨time, hn, hd, e⟩ := stepShLow_next_bit s.pinsUsed hb
    exact .inl ⟨_, [_], e, rfl, .shLowBit time h hp hb hn hd⟩
  by_cases hb' : s.regs.bitcnt = 24
  · obtain ⟨time, hn, hd, e⟩ := stepShLow_sample s.pinsUsed hb'
    exact .inl ⟨_, [_], e, rfl, .shLowSample time h hp hb' hn hd⟩
  · have hne : s.regs.bitcnt.toNat ≠ 24 := fun hc => hb' (BitVec.eq_of_toNat_eq (by simpa using hc))
    refine .inr (.inr (.inl ⟨?_, hp, by omega⟩))
    have hlt : ¬ s.regs.bitcnt < 24 := by simpa [BitVec.lt_def] using hb
    simp only [stepShLow, State.delay_regs, State.pinsUsed_regs, hlt, hb', if_false]

/-- The step in `GP_LOW` (R203 T7). -/
theorem step_moves_gpLow {s : State} (h : s.pins.rst = false) (hp : s.regs.phase = .gpLow) :
    StepMoves s (step s) := by
  rw [step_gpLow h hp]
  by_cases hg : 1 < s.regs.gpcnt.toNat
  · obtain ⟨time, hn, hd, e⟩ := stepGpLow_next_pulse s.pinsUsed hg
    exact .inl ⟨_, [_], e, rfl, .gpLowPulse time h hp hg hn hd⟩
  by_cases hg' : s.regs.gpcnt = 1
  · obtain ⟨time, hn, hd, e⟩ := stepGpLow_last s.pinsUsed hg'
    exact .inl ⟨_, [_], e, rfl, .gpLowLast time h hp hg' hn hd⟩
  · have hne : s.regs.gpcnt.toNat ≠ 1 := fun hc => hg' (BitVec.eq_of_toNat_eq (by simpa using hc))
    refine .inr (.inr (.inr ⟨?_, hp, BitVec.eq_of_toNat_eq (by simp; omega)⟩))
    have hlt : ¬ s.regs.gpcnt > 1 := by simpa [BitVec.lt_def] using hg
    simp only [stepGpLow, State.delay_regs, State.pinsUsed_regs, hlt, hg', if_false]

/-- Every step is one of the rows, or stops where there is none (R200, R201). -/
theorem step_moves (s : State) : StepMoves s (step s) := by
  cases h : s.pins.rst with
  | true => exact .inl ⟨_, [_], step_of_rst h, rfl, .rst _ h s.pinsUsed.now_le_later⟩
  | false =>
    cases hp : s.regs.phase with
    | idle => exact step_moves_idle h hp
    | poll => exact step_moves_poll h hp
    | pollwait =>
      obtain ⟨time, hn, hd, e⟩ := stepPollwait_next s.pinsUsed
      exact .inl ⟨_, [], (step_pollwait h hp).trans e, rfl, .pollwait time h hp hn hd⟩
    | pre =>
      obtain ⟨time, hn, hd, e⟩ := stepPre_next s.pinsUsed
      exact .inl ⟨_, [_], (step_pre h hp).trans e, rfl, .pre time h hp hn hd⟩
    | shHigh =>
      obtain ⟨sample, fall, hn, hs, hd, e⟩ := stepShHigh_next s.pinsUsed
      exact .inl ⟨_, [_, _], (step_shHigh h hp).trans e, rfl, .shHigh sample fall h hp hn hs hd⟩
    | shLow => exact step_moves_shLow h hp
    | gpHigh =>
      obtain ⟨fall, hn, hd, e⟩ := stepGpHigh_next s.pinsUsed
      exact .inl ⟨_, [_], (step_gpHigh h hp).trans e, rfl, .gpHigh fall h hp hn hd⟩
    | gpLow => exact step_moves_gpLow h hp
    | pdLow =>
      obtain ⟨time, hn, hd, e⟩ := stepPdLow_next s.pinsUsed
      exact .inl ⟨_, [_], (step_pdLow h hp).trans e, rfl, .pdLow time h hp hn hd⟩
    | pdHigh =>
      obtain ⟨time, hn, hd, e⟩ := stepPdHigh_next s.pinsUsed
      exact .inl ⟨_, [_], (step_pdHigh h hp).trans e, rfl, .pdHigh time h hp hn hd⟩
    | lowhold =>
      obtain ⟨time, hn, hd, e⟩ := stepLowhold_next s.pinsUsed
      exact .inl ⟨_, [_], (step_lowhold h hp).trans e, rfl, .lowhold time h hp hn hd⟩
    | resp =>
      cases hr : s.pins.rspReady with
      | true =>
        exact .inl ⟨s.pinsUsed.takeResponse, [], (step_resp h hp).trans (if_pos hr), rfl, .taken h hp hr⟩
      | false =>
        exact .inl ⟨s.pinsUsed, [], (step_resp h hp).trans (if_neg (by simp [hr])), rfl, .wait h (.inr hp)⟩

/-- A step with a next state is one of the rows (R203, R204). -/
theorem moves_of_step {s t : State} (h : step s = .next t) :
    ∃ es, t.world.hist = es ++ s.world.hist ∧ Moves s t.regs es t.world.now := by
  rcases step_moves s with ⟨t', es, e, hh, hm⟩ | ⟨e, -⟩ | ⟨e, -⟩ | ⟨e, -⟩
  · cases h.symm.trans e
    exact ⟨es, hh, hm⟩
  all_goals cases h.symm.trans e

end Sys2Proof.Machine
end

