-- ==== Sys2Proof/Laws/Operands.lean ====
section
/-! SUPPORT. The arithmetic of the operands as numbers (R102, R164, R169), and the ranges a reset step leaves (R22, R24, R27,
R33; log 10). -/

namespace Sys2Proof.Machine

/-- The poll spacing is exact: no bit of the product is lost (R102, R169 (f)). -/
theorem pollNanos_toNat (iv : BitVec 28) : (pollNanos iv).toNat = iv.toNat * 1000 := by
  have := iv.isLt
  have h : iv.toNat % 2 ^ 38 = iv.toNat := Nat.mod_eq_of_lt (by omega)
  simp only [pollNanos, BitVec.toNat_mul, BitVec.toNat_setWidth, h, show BitVec.toNat (1000 : BitVec 38) = 1000 from rfl]
  omega

/-- The largest poll spacing (R20, R33). -/
theorem pollNanos_le (iv : BitVec 28) : (pollNanos iv).toNat ≤ pollivMax := by
  have := iv.isLt
  rw [pollNanos_toNat, pollivMax]
  omega

/-- The sign extension keeps the signed value (R164). -/
theorem sext32_toInt (r : Raw) : (sext32 r).toInt = r.toInt := BitVec.toInt_signExtend_of_le (by decide)

/-- The range of a sample (R24). -/
theorem sext32_range (r : Raw) : -0x800000 ≤ (sext32 r).toInt ∧ (sext32 r).toInt ≤ 0x7FFFFF := by
  rw [sext32_toInt]
  have h1 := BitVec.toInt_lt (x := r)
  have h2 := BitVec.le_toInt r
  norm_num at h1 h2
  omega

/-- The registers a reset step leaves unspecified are within the ranges the spec gives them (log 10). -/
theorem Regs.afterRst_rangesOk (n : Nat) : (Regs.afterRst n).RangesOk := by
  refine ⟨?_, ?_, ?_, sext32_range _⟩
  · simp [Regs.afterRst]
    omega
  · simp only [Regs.afterRst]
    intro hc
    have := congrArg BitVec.toNat hc
    simp at this
    omega
  · have := Nat.mod_lt (Config.resetPolliv n) (show 0 < pollivMax + 1 by decide)
    simp [Regs.afterRst, pollivMax] at *
    omega

end Sys2Proof.Machine
end

