-- ==== Sys2Proof/Laws/PerInstr.lean ====
section
/-! SUPPORT. A fact about every command, stated once and proved command by command: its word carries its opcode in bits
[31:28] (R101, R103). -/

namespace Sys2Proof.Laws.OpcodeInWord

/-- The word of the command carries the command's opcode (R103). -/
def Statement (i : Instr) : Prop := opcodeField (encode i) = i.opcode

theorem init (dpin cpin : Pin) (gain : BitVec 8) : Statement (.init dpin cpin gain) := opcodeField_wordI _ _ _ _

theorem teardown : Statement .teardown := opcodeField_wordZ _

theorem isready : Statement .isready := opcodeField_wordZ _

theorem waitready (iv : BitVec 28) : Statement (.waitready iv) := opcodeField_wordV _ _

theorem read : Statement .read := opcodeField_wordZ _

theorem tryread : Statement .tryread := opcodeField_wordZ _

theorem setgain (code : BitVec 28) : Statement (.setgain code) := opcodeField_wordV _ _

theorem pwrdown : Statement .pwrdown := opcodeField_wordZ _

theorem pwrup : Statement .pwrup := opcodeField_wordZ _

end Sys2Proof.Laws.OpcodeInWord
end

