-- ==== Sys2Proof/Laws/Run.lean ====
section
/-! SUPPORT. Runs of several steps: one step at a time, what the host's list must not hold, and the answers that come. -/

namespace Sys2Proof.Machine

/-- A run begins with a step. -/
theorem run_succ {n : Nat} {s t : State} (h : step s = .next t) :
    Host.Core.run core (n + 1) s = Host.Core.run core n t := by
  have h' : core.step s = .next t := h
  simp only [Host.Core.run, h']

/-- A run of no steps. -/
theorem run_zero (s : State) : Host.Core.run core 0 s = .next s := rfl

/-- A run in two parts. -/
theorem run_add {m n : Nat} {s t : State} (h : Host.Core.run core m s = .next t) :
    Host.Core.run core (m + n) s = Host.Core.run core n t := by
  induction m generalizing s with
  | zero =>
    rw [Nat.zero_add, Host.Outcome.next.inj h]
  | succ m ih =>
    rw [Nat.succ_add]
    cases hst : step s with
    | next u =>
      rw [run_succ hst] at h ⊢
      exact ih h
    | fault f =>
      have hf : core.step s = .fault f := hst
      simp only [Host.Core.run, hf] at h
      cases h
    | refused r =>
      have hf : core.step s = .refused r := hst
      simp only [Host.Core.run, hf] at h
      cases h

/-- Without a reset in the next steps there is none now. -/
theorem State.NoRst.pins {n : Nat} {s : State} (h : s.NoRst (n + 1)) : s.pins.rst = false := by
  unfold State.pins
  cases hh : s.world.host with
  | nil => rfl
  | cons p ps => exact h p (by simp [hh])

/-- Without a reset in the next steps there is none in the steps after this one. -/
theorem State.NoRst.tail {n : Nat} {s t : State} (h : s.NoRst (n + 1)) (ht : t.world.host = s.world.host.tail) :
    t.NoRst n := by
  intro p hp
  rw [ht] at hp
  cases hh : s.world.host with
  | nil => simp [hh] at hp
  | cons q qs =>
    rw [hh] at hp
    exact h p (by rw [hh]; exact List.mem_cons_of_mem _ hp)

/-- The answers that come: the next one first. -/
theorem State.coming_succ {n : Nat} (s : State) {t : State} (ht : t.world.gets = s.world.gets.rest) :
    s.coming (n + 1) = s.dout :: t.coming n := by
  simp only [State.coming, Script.answers, ht]
  rfl

/-- The answers that come depend on the coming answers alone. -/
theorem State.coming_eq {n : Nat} {s t : State} (ht : t.world.gets = s.world.gets) : t.coming n = s.coming n := by
  simp only [State.coming, ht]

@[simp] theorem State.pinsUsed_dout (s : State) : s.pinsUsed.dout = s.dout := rfl

@[simp] theorem State.pinsUsed_lastT (s : State) : s.pinsUsed.lastT = s.lastT := rfl

end Sys2Proof.Machine
end

