-- ==== Sys2Proof/Tests/Slice0.lean ====
section
/-! SUPPORT. Tests of single steps against the vectors of spec/95_test_vectors.md and worked values of the rules, smoke tests
of the checks with an ill-formed term for each, and for every obligation with hypotheses a witness that meets them. -/

namespace Sys2Proof.Tests

open Sys2Proof.Machine

/-! ## Assembler lines (R102, R113) -/

theorem test_asm_init : (AsmLine.mk .init [5, 6, 128]).check.toOption = some (.init 5 6 128) := by decide
theorem test_asm_waitready_largest :
    (AsmLine.mk .waitready [268435455]).check.toOption = some (.waitready 0xFFFFFFF) := by decide
theorem test_asm_setgain_is_whole_field :
    (AsmLine.mk .setgain [384]).check.toOption = some (.setgain 0x180) := by decide
theorem test_asm_pin_out_of_range : (AsmLine.mk .init [256, 6, 128]).check = .error .operandRange := by rfl
theorem test_asm_clock_pin_out_of_range : (AsmLine.mk .init [5, 256, 128]).check = .error .operandRange := by rfl
theorem test_asm_gain_out_of_range : (AsmLine.mk .init [5, 6, 256]).check = .error .operandRange := by rfl
theorem test_asm_interval_out_of_range : (AsmLine.mk .waitready [268435456]).check = .error .operandRange := by rfl
theorem test_asm_code_out_of_range : (AsmLine.mk .setgain [268435456]).check = .error .operandRange := by rfl
theorem test_asm_operand_missing : (AsmLine.mk .init [5, 6]).check = .error .operandCount := by rfl
theorem test_asm_operand_too_many : (AsmLine.mk .read [1]).check = .error .operandCount := by rfl
theorem test_wellFormed_init : (Instr.init 255 255 255).wellFormed = true := by decide

/-! ## Encodings, written out field by field: opcode, must-be-zero, gain, clock pin, data pin; or opcode, value (R101,
V7, V8) -/

theorem test_decode_init :
    (decode 0b0001_0000_10000000_00000110_00000101).toOption = some (.init 5 6 128) := by decide
theorem test_decode_init_far_pins :
    (decode 0b0001_0000_10000000_11111111_00000000).toOption = some (.init 0 255 128) := by decide
theorem test_decode_init_unsupported_gain :
    (decode 0b0001_0000_01100100_00000110_00000101).toOption = some (.init 5 6 100) := by decide
theorem test_decode_teardown : (decode 0b0010_0000000000000000000000000000).toOption = some .teardown := by decide
theorem test_decode_isready : (decode 0b0011_0000000000000000000000000000).toOption = some .isready := by decide
theorem test_decode_waitready :
    (decode 0b0100_0000000000000000000001100100).toOption = some (.waitready 100) := by decide
theorem test_decode_waitready_largest :
    (decode 0b0100_1111111111111111111111111111).toOption = some (.waitready 268435455) := by decide
theorem test_decode_read : (decode 0b0101_0000000000000000000000000000).toOption = some .read := by decide
theorem test_decode_tryread : (decode 0b0110_0000000000000000000000000000).toOption = some .tryread := by decide
theorem test_decode_setgain :
    (decode 0b0111_0000000000000000000001000000).toOption = some (.setgain 64) := by decide
theorem test_decode_pwrdown : (decode 0b1000_0000000000000000000000000000).toOption = some .pwrdown := by decide
theorem test_decode_pwrup : (decode 0b1001_0000000000000000000000000000).toOption = some .pwrup := by decide
theorem test_decode_reserved_opcodes :
    [0x00000000, 0xA0000000, 0xB0000000, 0xC0000000, 0xD0000000, 0xE0000000, 0xF0000000, 0xFFFFFFFF].all
      (fun w => (decode w).toOption.isNone) = true := by decide
theorem test_decode_must_be_zero :
    [0x50000001, 0x20000001, 0x30000100, 0x68000000, 0x80000010, 0x90008000, 0x11800605].all
      (fun w => (decode w).toOption.isNone) = true := by decide
theorem test_encode_words :
    encode (.init 7 7 64) = 0x10400707 ∧ encode (.waitready 268435455) = 0x4FFFFFFF ∧
    encode (.setgain 100) = 0x70000064 ∧ encode .read = 0x50000000 := by decide
theorem test_decodeTableWord :
    decodeTableWord 32 0x10800605 = some (.init 5 6 128) ∧ decodeTableWord 32 0x11800605 = none := by decide

/-! ## Arithmetic (V1 to V6, V10; R164, R163, R102) -/

theorem test_sext_positive :
    sext32 0x123456 = 0x00123456 ∧ sext32 0x008000 = 0x00008000 ∧ sext32 0x7FFFFF = 0x007FFFFF := by decide
theorem test_sext_negative :
    sext32 0xFFFFFF = 0xFFFFFFFF ∧ sext32 0x800000 = 0xFF800000 ∧ sext32 0xABCDEF = 0xFFABCDEF := by decide
theorem test_shiftIn : shiftIn 0x091A2B 0 = 0x123456 ∧ shiftIn 0x000123 0 = 0x000246 ∧ shiftIn 0x000246 1 = 0x00048D := by
  decide
theorem test_shiftIn_drops_the_top : shiftIn 0x800000 1 = 0x000001 := by decide
theorem test_pulses : pulses 128 = some 1 ∧ pulses 32 = some 2 ∧ pulses 64 = some 3 := by decide
theorem test_pulses_unsupported :
    [0, 1, 2, 3, 16, 25, 31, 33, 63, 65, 127, 129, 256, 384, 268435455].all (fun c => (pulses c).isNone) = true := by
  decide
theorem test_pollNanos_is_exact : pollNanos 268435455 = 268435455000 := by decide
theorem test_status_codes : [Status.ok, .hardwareUnavailable, .lineUnavailable, .invalidGain, .notReady,
    .illegalState, .invalidCommand].map Status.code = [0, 1, 2, 3, 4, 5, 6] := by decide
theorem test_bitsOf : bitsOf 0x123456 = [0,0,0,1, 0,0,1,0, 0,0,1,1, 0,1,0,0, 0,1,0,1, 0,1,1,0] := by decide

/-! ## Small states -/

/-- Whether an outcome is a next state with the property. -/
def nextIs (o : Host.Outcome State Fault Refusal) (p : State → Bool) : Bool :=
  match o with
  | .next t => p t
  | .fault _ => false
  | .refused _ => false

/-- A state whose environment answers as listed (R92). -/
def scripted (acqs : List Bool) (gets : List Level) (s : State) : State :=
  { s with world := { s.world with acqs := ⟨acqs, 0⟩, gets := ⟨gets, 0⟩ } }

/-- The engine after `INIT 5, 6, 128` at time 0 (V11, first row), in the phase, with `CMDQ` and the coming samples
given. -/
def engine (phase : Phase) (op : BitVec 4) (gets : List Level) : State where
  regs := { Regs.reset with
    dpin := 5, cpin := 6, life := .init, hctrl := some ⟨0⟩, hdata := some ⟨1⟩, hclk := some ⟨2⟩, phase := phase, cmdq := op }
  world := { World.reset with
    gets := ⟨gets, 0⟩, handles := 3, hist := [.reqOut 6 0 true 0, .reqIn 5 true, .opened true] }

/-- A state whose coming host entries are as listed. -/
def driven (host : List HostPins) (s : State) : State := { s with world := { s.world with host := host } }

/-- A state with other registers. -/
def withRegs (f : Regs → Regs) (s : State) : State := { s with regs := f s.regs }

/-! ## One step of each command (V11 to V18) -/

theorem test_init : nextIs (step ((scripted [true, true, true] [] State.reset).withFetchWord 32 0x10800605)) (fun t =>
    t.regs.life == .init && t.regs.dpin == 5 && t.regs.cpin == 6 && t.regs.gain == 1 && t.regs.sckq == 0 &&
    t.regs.hclk.isSome && t.regs.phase == .lowhold &&
    t.world.hist.map Event.untimed ==
      [.reqOut 6 0 true 0, .reqIn 5 true, .opened true, .accepted 0x10800605 0]) = true := by decide

theorem test_init_one_line :
    nextIs (step ((scripted [true, true, true] [] State.reset).withFetchWord 32 0x10400707)) (fun t =>
      t.regs.life == .partlyInit && t.regs.hdata.isSome && t.regs.hclk.isNone && t.regs.gain == 3 &&
      t.regs.rstat == .lineUnavailable &&
      t.world.hist.map Event.untimed == [.respond .lineUnavailable 0 0, .reqOut 7 0 false 0, .reqIn 7 true,
        .opened true, .accepted 0x10400707 0]) = true := by decide

theorem test_teardown : nextIs (exec .teardown (engine .idle 1 [])) (fun t =>
    t.regs.life == .uninit && t.regs.hctrl.isNone && t.regs.hdata.isNone && t.regs.hclk.isNone && t.regs.rstat == .ok &&
    t.world.hist.take 4 == [.respond .ok 0 0, .closed, .released .data, .released .clk]) = true := by decide

theorem test_teardown_partial :
    nextIs (exec .teardown (withRegs (fun r => { r with life := .partlyInit, hclk := none }) (engine .idle 1 [])))
      (fun t => t.world.hist.take 4 == [.respond .ok 0 0, .closed, .released .data, .reqOut 6 0 true 0]) = true := by
  decide

theorem test_isready_low : nextIs (exec .isready (engine .idle 1 [0])) (fun t =>
    t.regs.rstat == .ok && t.regs.rdata == 1 &&
    (t.world.hist.map Event.untimed).take 2 == [.respond .ok 1 0, .get 0 0]) = true := by decide

theorem test_isready_high_powered_down :
    nextIs (exec .isready (withRegs (fun r => { r with pwr := .poweredDown }) (engine .idle 1 [1]))) (fun t =>
      t.regs.rstat == .ok && t.regs.rdata == 0) = true := by decide

theorem test_waitready : nextIs (step ((engine .idle 1 []).withFetchWord 32 0x40000064)) (fun t =>
    t.regs.phase == .poll && t.regs.polliv == 100000 && t.regs.cmdq == 4) = true := by decide

theorem test_waitready_uninit : nextIs (step (State.reset.withFetchWord 32 0x40000005)) (fun t =>
    t.regs.phase == .resp && t.rspStatus == 5 && t.rspData == 0) = true := by decide

theorem test_read : nextIs (step ((engine .idle 1 []).withFetchWord 32 0x50000000)) (fun t =>
    t.regs.phase == .poll && t.regs.cmdq == 5 &&
    t.world.hist.map Event.untimed == .accepted 0x50000000 0 :: (engine .idle 1 []).world.hist) = true := by decide

theorem test_read_powered_down :
    nextIs (exec .read (withRegs (fun r => { r with pwr := .poweredDown, sckq := 1 }) (engine .idle 1 [0]))) (fun t =>
      t.regs.phase == .resp && t.rspStatus == 5 && t.world.gets == ⟨[0], 0⟩) = true := by decide

theorem test_tryread : nextIs (exec .tryread (engine .idle 1 [1])) (fun t =>
    t.regs.phase == .poll && t.regs.cmdq == 6 && t.world.gets == ⟨[1], 0⟩) = true := by decide

theorem test_tryread_not_ready : nextIs (step (engine .poll 6 [1])) (fun t =>
    t.regs.phase == .resp && t.rspStatus == 4 && t.rspData == 0 && t.regs.shreg == 0 &&
    t.world.hist.countP (fun e => e.isRise) == 0) = true := by decide

theorem test_setgain : nextIs (exec (.setgain 64) (engine .idle 1 [])) (fun t =>
    t.regs.gain == 3 && t.regs.rstat == .ok && t.regs.rdata == 0 && t.regs.phase == .resp) = true := by decide

theorem test_setgain_low_byte_is_not_enough : nextIs (exec (.setgain 384) (engine .idle 1 [])) (fun t =>
    t.regs.gain == 1 && t.rspStatus == 3) = true := by decide

theorem test_pwrdown : nextIs (exec .pwrdown (engine .idle 1 [])) (fun t =>
    t.regs.phase == .pdLow && t.regs.sckq == 0 && t.regs.pwr == .active && t.world.hist.head? == some (.set 0 0)) = true := by
  decide

theorem test_pwrdown_end : nextIs (step (withRegs (fun r => { r with sckq := 1 }) (engine .pdHigh 8 []))) (fun t =>
    t.regs.pwr == .poweredDown && t.sckPin == some 1 && t.regs.rstat == .ok) = true := by decide

theorem test_pwrup :
    nextIs (exec .pwrup (withRegs (fun r => { r with pwr := .poweredDown, sckq := 1 }) (engine .idle 8 []))) (fun t =>
      t.regs.phase == .lowhold && t.regs.pwr == .active && t.sckPin == some 0) = true := by decide

theorem test_pwrup_uninit : nextIs (exec .pwrup State.reset) (fun t =>
    t.rspStatus == 5 && t.regs.life == .uninit && t.world.hist == [.respond .illegalState 0 0]) = true := by decide

/-! ## The internal steps (V6, V15) and the priority of errors (V18) -/

theorem test_last_data_bit :
    nextIs (step (withRegs (fun r => { r with shreg := 0x091A2B, bitcnt := 23, sckq := 1 }) (engine .shHigh 5 [0])))
      (fun t => t.regs.shreg == 0x123456 && t.regs.bitcnt == 24 && t.regs.phase == .shLow && t.regs.sckq == 0) = true := by
  decide

theorem test_sample_formed :
    nextIs (step (withRegs (fun r => { r with shreg := 0x800000, bitcnt := 24, gain := 3 }) (engine .shLow 5 [])))
      (fun t => t.regs.result == 0xFF800000 && t.regs.gpcnt == 3 && t.regs.phase == .gpHigh && t.regs.sckq == 1) = true := by
  decide

theorem test_read_ends :
    nextIs (step (withRegs (fun r => { r with result := 0xFFFFFFFF, bitcnt := 24, gpcnt := 1 }) (engine .gpLow 5 [])))
      (fun t => t.regs.gpcnt == 0 && t.rspData == 0xFFFFFFFF && t.rspStatus == 0 && t.rspValid) = true := by decide

theorem test_decode_before_state : nextIs (step (State.reset.withFetchWord 32 0x50000001)) (fun t =>
    t.rspStatus == 6 && t.regs.life == .uninit) = true := by decide

theorem test_operand_before_environment :
    nextIs (step ((scripted [false] [] State.reset).withFetchWord 32 0x10640605)) (fun t =>
      t.rspStatus == 3 && t.world.acqs == ⟨[false], 0⟩) = true := by decide

theorem test_rst_in_a_blocked_read :
    nextIs (step (driven [⟨true, some 0x50000000, false⟩] (engine .pollwait 5 [1]))) (fun t =>
      t.regs.phase == .idle && t.regs.life == .uninit && t.regs.hctrl.isNone &&
      t.world.hist.map Event.untimed == .reset 0 :: (engine .pollwait 5 []).world.hist) = true := by decide

/-! ## Witnesses: for every obligation with hypotheses, states and operands that meet them, at the boundary values of each
clause -/

/-- With no host entry there is no reset. -/
theorem silent_noRst (s : State) (n : Nat) (h : s.world.host = []) : s.NoRst n := by
  intro p hp
  simp [h] at hp

/-- With one word presented there is no reset. -/
theorem presenting_noRst (phase : Phase) (op : BitVec 4) (gets : List Level) (w : Word) (n : Nat) :
    ((engine phase op gets).presenting w).NoRst n := by
  intro p hp
  have h := List.mem_of_mem_take hp
  simp [State.presenting, engine, World.reset] at h
  simp [h]

theorem witness_DecodeInvertsEncode :
    (Instr.init 0 255 128).wellFormed = true ∧ (Instr.waitready 0xFFFFFFF).wellFormed = true := by decide

theorem witness_EncodeInvertsDecode : decode 0x10800605 = .ok (.init 5 6 128) := by rfl

theorem witness_TableRowsAgreeWithDecoder :
    Mnemonic.init.isRowOf 0x10FFFFFF ∧ Mnemonic.setgain.isRowOf 0x7FFFFFFF ∧ ∀ m : Mnemonic, ¬ m.isRowOf 0x50000001 := by
  refine ⟨rfl, rfl, fun m => ?_⟩
  cases m <;> simp [Mnemonic.isRowOf, Mnemonic.mask, Mnemonic.pattern]

theorem witness_StepRunsPresentedCommand :
    ((engine .idle 1 []).presenting 0x70000040).pins.rst = false ∧
    ((engine .idle 1 []).presenting 0x70000040).regs.phase = .idle ∧
    ((engine .idle 1 []).presenting 0x70000040).pins.cmd = some 0x70000040 ∧
    decode 0x70000040 = .ok (.setgain 64) := ⟨rfl, rfl, rfl, rfl⟩

theorem witness_InvalidWordIsAnswered :
    (State.reset.presenting 0x50000001).pins.rst = false ∧ (State.reset.presenting 0x50000001).regs.phase = .idle ∧
    (State.reset.presenting 0x50000001).pins.cmd = some 0x50000001 ∧ decode 0x50000001 = .error .mustBeZero ∧
    decode 0xA0000000 = .error .reservedOpcode := ⟨rfl, rfl, rfl, rfl, rfl⟩

theorem witness_RstWinsInEveryPhase : (driven [⟨true, none, false⟩] (engine .gpHigh 5 [])).pins.rst = true := by rfl

theorem witness_TakenResponseReturnsToIdle :
    (driven [⟨false, none, true⟩] (engine .resp 3 [])).pins.rst = false ∧
    (driven [⟨false, none, true⟩] (engine .resp 3 [])).regs.phase = .resp ∧
    (driven [⟨false, none, true⟩] (engine .resp 3 [])).pins.rspReady = true := ⟨rfl, rfl, rfl⟩

theorem witness_QuiescentEngineWaits :
    (engine .idle 1 []).pins.rst = false ∧ (engine .idle 1 []).regs.phase = .idle ∧
    (engine .idle 1 []).pins.cmd = none := ⟨rfl, rfl, rfl⟩

theorem witness_QuiescentEngineWaits_resp :
    (engine .resp 1 []).pins.rst = false ∧ (engine .resp 1 []).regs.phase = .resp ∧
    (engine .resp 1 []).pins.rspReady = false := ⟨rfl, rfl, rfl⟩

theorem witness_HistoryOnlyGrowsAndAcceptsInIdle :
    step (engine .resp 3 []) = .next (engine .resp 3 []) ∧ (engine .resp 3 []).cmdReady = false := ⟨rfl, rfl⟩

theorem witness_IllegalStateFollowsTheTable :
    ¬ State.reset.regs.allows .pwrup ∧ State.reset.regs.allows (.init 5 6 128) ∧
    ¬ (engine .idle 1 []).regs.allows (.init 5 6 128) ∧ (engine .idle 1 []).regs.allows .read ∧
    ¬ (withRegs (fun r => { r with pwr := .poweredDown }) (engine .idle 1 [])).regs.allows .tryread ∧
    State.reset.regs.allows .teardown := by
  simp [Regs.allows, engine, withRegs, State.reset, Regs.reset]

theorem witness_InvalidGainChangesNothing :
    State.reset.regs.life = .uninit ∧ (129 : BitVec 8) ≠ 128 ∧ (129 : BitVec 8) ≠ 64 ∧ (129 : BitVec 8) ≠ 32 ∧
    (engine .idle 1 []).regs.life = .init ∧ (384 : BitVec 28) ≠ 128 ∧ (384 : BitVec 28) ≠ 64 ∧
    (384 : BitVec 28) ≠ 32 := by decide

theorem witness_CommandsEndWithTheirStatuses :
    (∃ t, exec .teardown (engine .idle 1 []) = .next t ∧ t.regs.phase = .resp) ∧
    ∃ t, step (engine .poll 6 [1]) = .next t ∧ (engine .poll 6 [1]).pins.rst = false ∧
      (engine .poll 6 [1]).regs.phase ≠ .idle ∧ (engine .poll 6 [1]).regs.phase ≠ .resp ∧ t.regs.phase = .resp :=
  ⟨⟨_, rfl, rfl⟩, _, rfl, rfl, (by decide), (by decide), rfl⟩

theorem witness_InitAcquiresInOrder :
    State.reset.regs.life = .uninit ∧ State.reset.regs.HandlesOk ∧ pulses (128 : BitVec 8).toNat = some 1 ∧
    (5 : Pin) ≠ 6 ∧
    (scripted [true, true, true] [] State.reset).world.acqs.answers Config.freeGrant 3 = [true, true, true] :=
  ⟨rfl, ⟨rfl, rfl, rfl⟩, rfl, (by decide), rfl⟩

theorem witness_InitStopsAtFirstRefusal :
    State.reset.regs.life = .uninit ∧ State.reset.regs.HandlesOk ∧ pulses (32 : BitVec 8).toNat = some 2 ∧
    (scripted [false] [] State.reset).world.acqs.answers Config.freeGrant 1 = [false] ∧
    (scripted [true, false] [] State.reset).world.acqs.answers Config.freeGrant 2 = [true, false] ∧
    (0 : Pin) ≠ 255 ∧ (scripted [true, true, false] [] State.reset).world.acqs.answers Config.freeGrant 3 = [true, true, false] :=
  ⟨rfl, ⟨rfl, rfl, rfl⟩, rfl, rfl, rfl, (by decide), rfl⟩

theorem witness_InitOnOneLineFails :
    State.reset.regs.life = .uninit ∧ State.reset.regs.HandlesOk ∧ pulses (64 : BitVec 8).toNat = some 3 ∧
    (scripted [true, true] [] State.reset).world.acqs.answers Config.freeGrant 2 = [true, true] :=
  ⟨rfl, ⟨rfl, rfl, rfl⟩, rfl, rfl⟩

theorem witness_LowholdAnswersAfterLowTime :
    (engine .lowhold 1 []).pins.rst = false ∧ (engine .lowhold 1 []).regs.phase = .lowhold ∧
    (engine .lowhold 1 []).lastT = some 0 := ⟨rfl, rfl, rfl⟩

theorem witness_IsreadyReportsTheLine :
    (engine .idle 1 [0]).regs.life = .init ∧ (engine .idle 1 [0]).dout = 0 ∧ (engine .idle 1 [1]).dout = 1 := ⟨rfl, rfl, rfl⟩

theorem witness_WaitreadyStartsPolling : (engine .idle 1 []).regs.life = .init := by rfl

theorem witness_PollStepSamplesOnce :
    (engine .poll 4 [0]).pins.rst = false ∧ (engine .poll 4 [0]).regs.phase = .poll ∧
    (engine .poll 4 [0]).regs.cmdq = 0x4 ∧ (engine .poll 4 [0]).dout = 0 ∧
    (engine .poll 5 [0]).regs.cmdq ≠ 0x4 ∧ (engine .poll 5 [0]).dout = 0 ∧
    (engine .poll 5 [1]).regs.cmdq ≠ 0x6 ∧ (engine .poll 5 [1]).dout = 1 ∧
    (engine .poll 6 [1]).regs.cmdq = 0x6 ∧ (engine .poll 6 [1]).dout = 1 := by decide

theorem witness_PollwaitLetsTheIntervalPass :
    (engine .pollwait 4 []).pins.rst = false ∧ (engine .pollwait 4 []).regs.phase = .pollwait ∧
    (engine .pollwait 4 []).lastT = some 0 := ⟨rfl, rfl, rfl⟩

theorem witness_WaitreadyAnswersWhenReady :
    ((engine .idle 1 [1, 1, 0]).presenting (encode (.waitready 100))).regs.phase = .idle ∧
    ((engine .idle 1 [1, 1, 0]).presenting (encode (.waitready 100))).regs.life = .init ∧
    ((engine .idle 1 [1, 1, 0]).presenting (encode (.waitready 100))).pins.cmd = some (encode (.waitready 100)) ∧
    ((engine .idle 1 [1, 1, 0]).presenting (encode (.waitready 100))).NoRst (2 * 2 + 2) ∧
    ((engine .idle 1 [1, 1, 0]).presenting (encode (.waitready 100))).coming (2 + 1) = List.replicate 2 1 ++ [0] ∧
    ((engine .idle 1 [0]).presenting (encode (.waitready 100))).coming (0 + 1) = List.replicate 0 1 ++ [0] :=
  ⟨rfl, rfl, rfl, presenting_noRst _ _ _ _ _, rfl, rfl⟩

theorem witness_UnreadyChipBlocksForever :
    (engine .poll 5 [1, 1]).regs.phase = .poll ∧ (engine .poll 5 [1, 1]).regs.cmdq = 0x5 ∧
    (engine .poll 5 [1, 1]).NoRst 2 ∧ (engine .poll 5 [1, 1]).NeverReady 2 ∧
    (engine .pollwait 4 [1, 1]).regs.phase = .pollwait ∧ (engine .pollwait 4 [1, 1]).regs.cmdq = 0x4 :=
  ⟨rfl, rfl, silent_noRst _ _ rfl, (by unfold State.NeverReady; decide), rfl, rfl⟩

theorem witness_ReadStartsPolling :
    (engine .idle 1 []).regs.life = .init ∧ (engine .idle 1 []).regs.pwr = .active := ⟨rfl, rfl⟩

theorem witness_TryreadStartsPolling :
    (engine .idle 1 []).regs.life = .init ∧ (engine .idle 1 []).regs.pwr = .active := ⟨rfl, rfl⟩

theorem witness_FrameBeginsWithClearedShift :
    (engine .pre 5 []).pins.rst = false ∧ (engine .pre 5 []).regs.phase = .pre ∧ (engine .pre 5 []).lastT = some 0 :=
  ⟨rfl, rfl, rfl⟩

theorem witness_DataPulseShiftsOneBit :
    (engine .shHigh 5 [1]).pins.rst = false ∧ (engine .shHigh 5 [1]).regs.phase = .shHigh ∧
    (engine .shHigh 5 [1]).lastT = some 0 ∧ (engine .shHigh 5 [1]).world.now ≤ 0 + tHighMax :=
  ⟨rfl, rfl, rfl, Nat.zero_le _⟩

theorem witness_SampleIsFormedAfterTwentyFourBits :
    (engine .shLow 5 []).pins.rst = false ∧ (engine .shLow 5 []).regs.phase = .shLow ∧
    (engine .shLow 5 []).lastT = some 0 ∧
    (withRegs (fun r => { r with bitcnt := 23 }) (engine .shLow 5 [])).regs.bitcnt.toNat < 24 ∧
    (withRegs (fun r => { r with bitcnt := 24 }) (engine .shLow 5 [])).regs.bitcnt = 24 := by decide

theorem witness_GainPulseCountsDown :
    (engine .gpHigh 5 []).pins.rst = false ∧ (engine .gpHigh 5 []).lastT = some 0 ∧
    (engine .gpHigh 5 []).regs.phase = .gpHigh ∧ (engine .gpHigh 5 []).world.now ≤ 0 + tHighMax ∧
    (engine .gpLow 5 []).regs.phase = .gpLow ∧
    1 < (withRegs (fun r => { r with gpcnt := 2 }) (engine .gpLow 5 [])).regs.gpcnt.toNat ∧
    (withRegs (fun r => { r with gpcnt := 1 }) (engine .gpLow 5 [])).regs.gpcnt = 1 :=
  ⟨rfl, rfl, rfl, Nat.zero_le _, rfl, (by decide), rfl⟩

theorem witness_FrameReadsTwentyFourBits :
    (engine .pre 5 []).regs.phase = .pre ∧ (engine .pre 5 []).regs.gain ≠ 0 ∧
    (engine .pre 5 []).NoRst (1 + 2 * (24 + (engine .pre 5 []).regs.gain.toNat)) :=
  ⟨rfl, (by decide), silent_noRst _ _ rfl⟩

theorem witness_SampleRegistersChangeOnlyInFrames_loaded :
    ∃ t, step (withRegs (fun r => { r with bitcnt := 24, gain := 3 }) (engine .shLow 5 [])) = .next t ∧
      t.regs.gpcnt ≠ 0 ∧ t.regs.gpcnt = 3 := ⟨_, rfl, by decide, rfl⟩

theorem witness_SampleRegistersChangeOnlyInFrames_counted :
    ∃ t, step (withRegs (fun r => { r with gpcnt := 1 }) (engine .gpLow 5 [])) = .next t ∧
      t.regs.gpcnt ≠ 1 ∧ t.regs.gpcnt = 0 := ⟨_, rfl, by decide, rfl⟩

theorem witness_FrameTakesItsTime :
    (engine .pre 5 []).regs.phase = .pre ∧ (engine .pre 5 []).regs.gain ≠ 0 ∧ (engine .pre 5 []).lastT = some 0 ∧
    (engine .pre 5 []).NoRst (1 + 2 * (24 + (engine .pre 5 []).regs.gain.toNat)) :=
  ⟨rfl, (by decide), rfl, silent_noRst _ _ rfl⟩

/-- The engine with a command presented and a chip that is not ready `k` times and then gives `v`. -/
def reading (i : Instr) (k : Nat) (v : Raw) : State := (engine .idle 1 (chipScript k v)).presenting (encode i)

theorem witness_ReadReturnsTheChipsSample :
    (reading .read 2 0x800000).regs.phase = .idle ∧ (reading .read 2 0x800000).regs.life = .init ∧
    (reading .read 2 0x800000).regs.pwr = .active ∧ (reading .read 2 0x800000).regs.gain ≠ 0 ∧
    (reading .read 2 0x800000).pins.cmd = some (encode .read) ∧
    (reading .read 2 0x800000).coming (2 + 1 + 24) = chipScript 2 0x800000 ∧
    (reading .read 2 0x800000).NoRst (2 * 2 + 3 + 2 * (24 + (reading .read 2 0x800000).regs.gain.toNat)) ∧
    (reading .tryread 0 0x000001).coming (0 + 1 + 24) = chipScript 0 0x000001 :=
  ⟨rfl, rfl, rfl, (by decide), rfl, (by decide), presenting_noRst _ _ _ _ _, by decide⟩

theorem witness_DataBitsDoNotSteer :
    (withRegs (fun r => { r with shreg := 5 }) (engine .shHigh 5 [0])).blind = (engine .shHigh 5 [1]).blind ∧
    (withRegs (fun r => { r with shreg := 5 }) (engine .shHigh 5 [0])).regs.phase ≠ .poll ∧
    ∃ t, step (withRegs (fun r => { r with shreg := 5 }) (engine .shHigh 5 [0])) = .next t := ⟨rfl, (by decide), _, rfl⟩

theorem witness_SetgainStoresThePulseCount : (engine .idle 1 []).regs.life = .init ∧ pulses 128 = some 1 := ⟨rfl, rfl⟩

theorem witness_NewGainShowsOneReadLater :
    pulses 128 = some (engine .pre 5 []).regs.gain ∧ (engine .pre 5 []).regs.phase = .pre ∧
    (engine .pre 5 []).NoRst (1 + 2 * (24 + (engine .pre 5 []).regs.gain.toNat)) ∧
    StaleByOne [⟨27, 32⟩, ⟨25, 64⟩, ⟨26, 128⟩] :=
  ⟨rfl, rfl, silent_noRst _ _ rfl, rfl, rfl, trivial⟩

theorem witness_PwrdownHoldsTheClockHigh : (engine .idle 1 []).regs.life = .init ∧
    ∃ s1, exec .pwrdown (engine .idle 1 []) = .next s1 ∧ s1.NoRst 2 := ⟨rfl, _, rfl, silent_noRst _ _ rfl⟩

theorem witness_PwrupDrivesTheClockLow : (engine .idle 1 []).regs.life = .init ∧
    ∃ s1, exec .pwrup (engine .idle 1 []) = .next s1 ∧ s1.NoRst 1 := ⟨rfl, _, rfl, silent_noRst _ _ rfl⟩

theorem witness_CommandsWriteOnlyTheirRegisters : ∃ t, exec .read (engine .idle 1 []) = .next t := ⟨_, rfl⟩

theorem witness_ConfigurationChangesOnlyByCommand :
    ∃ t, step ((engine .idle 1 []).presenting 0x70000040) = .next t ∧
      ((engine .idle 1 []).presenting 0x70000040).pins.rst = false ∧
      t.regs.gain ≠ ((engine .idle 1 []).presenting 0x70000040).regs.gain := ⟨_, rfl, rfl, by decide⟩

theorem witness_SampleRegistersChangeOnlyInFrames :
    ∃ t, step (engine .shHigh 5 [1]) = .next t ∧ (engine .shHigh 5 [1]).pins.rst = false ∧
      t.regs.shreg ≠ (engine .shHigh 5 [1]).regs.shreg := ⟨_, rfl, rfl, by decide⟩

/-- The last low half of a frame: 24 ones shifted in, one gain pulse sent. -/
def frameEnd : State :=
  withRegs (fun r => { r with shreg := 0xFFFFFF, bitcnt := 24, gpcnt := 1, result := 0xFFFFFFFF }) (engine .gpLow 5 [])

theorem witness_ResultMatchesTheShiftRegister :
    frameEnd.regs.Inv ∧ frameEnd.pins.rst = false ∧ frameEnd.regs.phase = .gpLow ∧
    frameEnd.regs.result = sext32 frameEnd.regs.shreg ∧ ∃ t, step frameEnd = .next t := by
  refine ⟨⟨⟨rfl, rfl, rfl⟩, ⟨⟨rfl, rfl, .inl rfl⟩, rfl, rfl, by decide, by decide⟩, ?_⟩, rfl, rfl, by decide, _, rfl⟩
  unfold Regs.RangesOk
  decide

theorem witness_PowerRecordTransitions :
    ∃ t, step (engine .pdHigh 8 []) = .next t ∧ (engine .pdHigh 8 []).pins.rst = false ∧
      t.regs.pwr ≠ (engine .pdHigh 8 []).regs.pwr := ⟨_, rfl, rfl, by decide⟩

theorem witness_PowerRecordTransitions_up :
    ∃ t, step ((withRegs (fun r => { r with pwr := .poweredDown }) (engine .idle 8 [])).presenting 0x90000000) = .next t ∧
      t.regs.pwr = .active := ⟨_, rfl, rfl⟩

/-- The registers of the engine between commands meet their invariant. -/
theorem witness_StepKeepsRegisterInvariant : (engine .idle 1 []).regs.Inv := by
  refine ⟨⟨rfl, rfl, rfl⟩, ?_, ?_⟩
  · intro _
    decide
  · unfold Regs.RangesOk
    decide

theorem witness_WireCallsUseHeldLines :
    ((engine .idle 1 []).presenting 0x80000000).regs.Inv ∧
    ∃ t es, step ((engine .idle 1 []).presenting 0x80000000) = .next t ∧
      t.world.hist = es ++ ((engine .idle 1 []).presenting 0x80000000).world.hist ∧ ∃ e ∈ es, e.needsInit = true :=
  ⟨witness_StepKeepsRegisterInvariant, _, [_, _], rfl, rfl, _, List.mem_cons_self, rfl⟩

theorem witness_StepsNeverStop : (engine .idle 1 []).regs.Inv := witness_StepKeepsRegisterInvariant

theorem witness_StepKeepsPulseTiming : (engine .lowhold 1 []).PulseInv := by
  refine ⟨⟨⟨rfl, rfl, rfl⟩, ⟨rfl, rfl, rfl, .inl rfl⟩, ?_⟩, ?_, ?_, ?_, 0, rfl, rfl⟩
  · unfold Regs.RangesOk
    decide
  · exact ⟨Nat.le_refl _, trivial⟩
  · exact ⟨trivial, trivial, trivial, trivial⟩
  · exact ⟨trivial, trivial, trivial, trivial⟩

theorem witness_StepKeepsClockRecord : (engine .idle 1 []).regs.Inv ∧ (engine .idle 1 []).DriveOk :=
  ⟨witness_StepKeepsRegisterInvariant, fun _ => ⟨0, rfl, Nat.le_refl _, (fun h => by cases h), fun _ h => by cases h⟩⟩

/-- A powered-down engine between commands: the clock high since 2000 ns, now 62000 ns (P3). -/
def asleep : State where
  regs := { (engine .idle 8 []).regs with sckq := 1, pwr := .poweredDown }
  world := { (engine .idle 8 []).world with
    now := 62000, hist := .set 1 2000 :: .set 0 1000 :: (engine .idle 8 []).world.hist }

theorem witness_IdleRecordsFollowTheChip_init :
    asleep.regs.Inv ∧ asleep.DriveOk ∧ asleep.regs.phase = .idle ∧ asleep.regs.life = .init ∧
    asleep.regs.pwr = .poweredDown ∧ (engine .idle 1 []).regs.pwr = .active := by
  refine ⟨⟨⟨rfl, rfl, rfl⟩, (fun _ => by decide), ?_⟩, ?_, rfl, rfl, rfl, rfl⟩
  · unfold Regs.RangesOk
    decide
  · exact fun _ => ⟨2000, rfl, (by decide), (fun h => by cases h), fun _ _ => by decide⟩

/-- An engine whose INIT failed at the clock line (V11). -/
def halfInit : State := withRegs (fun r => { r with life := .partlyInit, hclk := none }) (engine .idle 1 [])

theorem witness_IdleRecordsFollowTheChip_partial :
    halfInit.regs.Inv ∧ halfInit.DriveOk ∧ halfInit.regs.phase = .idle ∧ halfInit.regs.life = .partlyInit := by
  refine ⟨⟨⟨rfl, rfl⟩, (fun h => by cases h), ?_⟩, (fun h => by cases h), rfl, rfl⟩
  unfold Regs.RangesOk
  decide

theorem witness_IdleRecordsFollowTheChip_uninit :
    State.reset.regs.Inv ∧ State.reset.DriveOk ∧ State.reset.regs.phase = .idle ∧ State.reset.regs.life = .uninit := by
  refine ⟨⟨⟨rfl, rfl, rfl⟩, (fun h => by cases h), ?_⟩, (fun h => by cases h), rfl, rfl⟩
  unfold Regs.RangesOk
  decide

theorem witness_StepKeepsTheLedger : (engine .idle 1 []).regs.Inv ∧ (engine .idle 1 []).LedgerOk :=
  ⟨witness_StepKeepsRegisterInvariant, fun r => by cases r <;> rfl⟩

theorem witness_ReleasesMatchAcquisitions :
    (engine .idle 1 []).LedgerOk ∧ (engine .idle 1 []).world.hist.all (fun e => !e.isReset) = true :=
  ⟨fun r => by cases r <;> rfl, rfl⟩

end Sys2Proof.Tests
end

section

namespace Sys2Proof.Machine

/-- The low 24 bits of the extension are the raw value (R8). -/
@[simp] theorem sext32_extractLsb'_low (r : Raw) : (sext32 r).extractLsb' 0 24 = r := by
  ext i hi
  have hi32 : i < 32 := by omega
  simp [sext32, BitVec.getElem_signExtend, hi, hi32]

/-- The top 8 bits of the extension copy bit 23, the sign bit (R8). -/
theorem sext32_extractLsb'_high (r : Raw) :
    (sext32 r).extractLsb' 24 8 = if r.getLsbD 23 then 0xFF else 0x00 := by
  have hmsb : r.msb = r.getLsbD 23 := BitVec.msb_eq_getLsbD_last r
  have hfill : (sext32 r).extractLsb' 24 8 = BitVec.fill 8 r.msb := by
    ext i hi
    have hi32 : 24 + i < 32 := by omega
    simp [sext32, BitVec.getElem_signExtend, hi32]
  rw [hfill, hmsb]
  cases r.getLsbD 23 <;> rfl

/-- The integer value of the extension, from the unsigned raw value (R164). -/
theorem sext32_toInt_eq_ite (r : Raw) :
    (sext32 r).toInt = if r.toNat ≥ 0x800000 then (r.toNat : Int) - 0x1000000 else r.toNat := by
  rw [sext32_toInt, BitVec.toInt_eq_toNat_cond]
  split <;> split <;> omega

/-- Settles O38: the low bits give back the raw value, so extending them again changes nothing. -/
theorem signExtensionMatchesTheFormula : Obligations.SignExtensionMatchesTheFormula := fun r =>
  ⟨sext32_extractLsb'_low r, sext32_extractLsb'_high r, sext32_toInt_eq_ite r,
    congrArg sext32 (sext32_extractLsb'_low r)⟩

end Sys2Proof.Machine
end

section
/-! The phases' parts of the registers' invariant, one equation a phase (R32, R203), and that every row of `Moves` keeps the
three parts of the invariant: the handles, the phases and the ranges (R38, R20). -/

namespace Sys2Proof.Machine

section
variable {r : Regs}

theorem Regs.phaseOk_of_idle (hp : r.phase = .idle) : r.PhaseOk ↔ r.ClockRecords := by
  simp only [Regs.PhaseOk, hp]

theorem Regs.phaseOk_of_resp (hp : r.phase = .resp) : r.PhaseOk ↔ r.ClockRecords := by
  simp only [Regs.PhaseOk, hp]

theorem Regs.phaseOk_of_poll (hp : r.phase = .poll) :
    r.PhaseOk ↔ r.life = .init ∧ r.ClockRecords ∧ (r.cmdq = opWaitready ∨ r.Reading) := by
  simp only [Regs.PhaseOk, hp]

theorem Regs.phaseOk_of_pollwait (hp : r.phase = .pollwait) :
    r.PhaseOk ↔ r.life = .init ∧ r.ClockRecords ∧ (r.cmdq = opWaitready ∨ (r.Reading ∧ r.cmdq = opRead)) := by
  simp only [Regs.PhaseOk, hp]

theorem Regs.phaseOk_of_pre (hp : r.phase = .pre) : r.PhaseOk ↔ r.Reading ∧ r.sckq = 0 := by
  simp only [Regs.PhaseOk, hp]

theorem Regs.phaseOk_of_shHigh (hp : r.phase = .shHigh) :
    r.PhaseOk ↔ r.Reading ∧ r.sckq = 1 ∧ r.bitcnt.toNat < 24 ∧ r.shreg.toNat < 2 ^ r.bitcnt.toNat := by
  simp only [Regs.PhaseOk, hp]

theorem Regs.phaseOk_of_shLow (hp : r.phase = .shLow) :
    r.PhaseOk ↔ r.Reading ∧ r.sckq = 0 ∧ r.shreg.toNat < 2 ^ r.bitcnt.toNat := by
  simp only [Regs.PhaseOk, hp]

theorem Regs.phaseOk_of_gpHigh (hp : r.phase = .gpHigh) :
    r.PhaseOk ↔ r.Reading ∧ r.sckq = 1 ∧ r.bitcnt = 24 ∧ r.gpcnt ≠ 0 ∧ r.result = sext32 r.shreg := by
  simp only [Regs.PhaseOk, hp]

theorem Regs.phaseOk_of_gpLow (hp : r.phase = .gpLow) :
    r.PhaseOk ↔ r.Reading ∧ r.sckq = 0 ∧ r.bitcnt = 24 ∧ r.gpcnt ≠ 0 ∧ r.result = sext32 r.shreg := by
  simp only [Regs.PhaseOk, hp]

theorem Regs.phaseOk_of_pdLow (hp : r.phase = .pdLow) :
    r.PhaseOk ↔ r.life = .init ∧ r.cmdq = opPwrdown ∧ r.sckq = 0 := by
  simp only [Regs.PhaseOk, hp]

theorem Regs.phaseOk_of_pdHigh (hp : r.phase = .pdHigh) :
    r.PhaseOk ↔ r.life = .init ∧ r.cmdq = opPwrdown ∧ r.sckq = 1 := by
  simp only [Regs.PhaseOk, hp]

theorem Regs.phaseOk_of_lowhold (hp : r.phase = .lowhold) :
    r.PhaseOk ↔ r.life = .init ∧ r.pwr = .active ∧ r.sckq = 0 ∧ (r.cmdq = opInit ∨ r.cmdq = opPwrup) := by
  simp only [Regs.PhaseOk, hp]

theorem Regs.handlesOk_of_uninit (hl : r.life = .uninit) :
    r.HandlesOk ↔ r.hctrl = none ∧ r.hdata = none ∧ r.hclk = none := by
  simp only [Regs.HandlesOk, hl]

theorem Regs.handlesOk_of_partlyInit (hl : r.life = .partlyInit) :
    r.HandlesOk ↔ r.hctrl.isSome = true ∧ r.hclk = none := by
  simp only [Regs.HandlesOk, hl]

theorem Regs.handlesOk_of_init (hl : r.life = .init) :
    r.HandlesOk ↔ r.hctrl.isSome = true ∧ r.hdata.isSome = true ∧ r.hclk.isSome = true := by
  simp only [Regs.HandlesOk, hl]

/-- Outside the state Init the clock record claims nothing. -/
theorem Regs.clockRecords_of_not_init (hl : r.life ≠ .init) : r.ClockRecords := fun h => absurd h hl

/-- A low clock agrees with a chip recorded as active (R28). -/
theorem Regs.clockRecords_of_low (ha : r.pwr = .active) (hq : r.sckq = 0) : r.ClockRecords := by
  intro _
  simp [ha, hq]

/-- Between commands the clock of an active chip is low (R38 item 4). -/
theorem Regs.ClockRecords.sckq_eq_zero (h : r.ClockRecords) (hl : r.life = .init) (ha : r.pwr = .active) :
    r.sckq = 0 := by
  refine (level_cases r.sckq).resolve_right fun hq => ?_
  have hd : r.pwr = .poweredDown := (h hl).mp hq
  rw [ha] at hd
  cases hd

/-- A bit shifted in keeps the bits above the count zero: one more bit, one more place (R21). -/
theorem shiftIn_toNat_lt {v : Raw} {n : Nat} (b : Level) (h : v.toNat < 2 ^ n) :
    (shiftIn v b).toNat < 2 ^ (n + 1) := by
  have hb := b.isLt
  have hm := Nat.mod_le (2 * v.toNat + b.toNat) (2 ^ 24)
  rw [shiftIn_toNat, Nat.pow_succ]
  omega

/-- Below 24 the bit count does not wrap (R22). -/
theorem bitcnt_succ_toNat {n : BitVec 5} (h : n.toNat < 24) : (n + 1).toNat = n.toNat + 1 := by
  have h1 : (1 : BitVec 5).toNat = 1 := rfl
  rw [BitVec.toNat_add, h1]
  omega

/-- Above 0 the count of gain pulses does not wrap (R23). -/
theorem gpcnt_pred_toNat {n : BitVec 2} (h : 0 < n.toNat) : (n - 1).toNat = n.toNat - 1 := by
  have h1 : (1 : BitVec 2).toNat = 1 := rfl
  have hn := n.isLt
  rw [BitVec.toNat_sub, h1]
  omega

/-- While more than one gain pulse is left, one is left after this one (R23). -/
theorem gpcnt_pred_ne_zero {n : BitVec 2} (h : 1 < n.toNat) : n - 1 ≠ 0 := by
  intro hz
  have hp := gpcnt_pred_toNat (n := n) (by omega)
  rw [hz, show (0 : BitVec 2).toNat = 0 from rfl] at hp
  omega

/-! ## A command's accept step -/

variable {v : Level} {start time : Nat} {i : Instr} {r' : Regs} {es : List Event}

/-- INIT takes the handles that its life-cycle state needs, TEARDOWN gives all of them up, and no other command touches
them (R38 items 1 to 3). -/
theorem CommandMoves.handlesOk (hm : CommandMoves r v start i r' es time) (hh : r.HandlesOk) : r'.HandlesOk := by
  cases hm with
  | initData d c g p h0 hl | initClock d c g p h0 h1 time hl =>
    obtain ⟨-, -, hclk⟩ := (Regs.handlesOk_of_uninit hl).mp hh
    exact ⟨rfl, hclk⟩
  | initDone => exact ⟨rfl, rfl, rfl⟩
  | teardown => exact ⟨rfl, rfl, rfl⟩
  | _ => exact hh

/-- A command begins with the clock in agreement with the power record and goes where its phase's clause holds (R38 items 4
and 5, R32). -/
theorem CommandMoves.phaseOk (hm : CommandMoves r v start i r' es time) (hk : r.ClockRecords) : r'.PhaseOk := by
  cases hm with
  | initData | initClock | teardown => exact Regs.clockRecords_of_not_init (by simp)
  | initDone => exact ⟨rfl, rfl, rfl, .inl rfl⟩
  | waitready iv hl => exact ⟨hl, hk, .inl rfl⟩
  | read hl ha => exact ⟨hl, hk, .inr ⟨hl, ha, .inl rfl⟩⟩
  | tryread hl ha => exact ⟨hl, hk, .inr ⟨hl, ha, .inr rfl⟩⟩
  | pwrdown hl => exact ⟨hl, rfl, rfl⟩
  | pwrup hl => exact ⟨hl, rfl, rfl, .inr rfl⟩
  | illegal | initGain | initOpen | isready | setgainBad | setgain => exact hk

/-- A command writes a pulse count to `GAIN`, and to `POLLIV` no more than it can hold (R27, R33). -/
theorem CommandMoves.rangesOk (hm : CommandMoves r v start i r' es time) (hr : r.RangesOk) : r'.RangesOk := by
  obtain ⟨hb, hg, hp, hres⟩ := hr
  cases hm with
  | initOpen d c g p hl hg' | initData d c g p h0 hl hg' | initClock d c g p h0 h1 time hl hg'
  | initDone d c g p h0 h1 h2 time hl hg' | setgain code p hl hg' => exact ⟨hb, pulses_ne_zero hg', hp, hres⟩
  | waitready iv => exact ⟨hb, hg, pollNanos_le iv, hres⟩
  | read => exact ⟨hb, hg, tPollRead_le, hres⟩
  | _ => exact ⟨hb, hg, hp, hres⟩

/-! ## Every step -/

variable {s : State}

/-- No step but a command's and the reset touches the handles (R30). -/
theorem Moves.handlesOk (hm : Moves s r es time) (hh : s.regs.HandlesOk) : r.HandlesOk := by
  cases hm with
  | rst => exact ⟨rfl, rfl, rfl⟩
  | command w i start r es time h hp hw hd hn hc => exact hc.handlesOk hh
  | _ => exact hh

/-- Every row leads from its phase's clause to the clause of the next phase (R203). A read that leaves `POLL` is active, so
its clock is low; `GAIN`, which is not 0, is what the gain pulses are counted from. -/
theorem Moves.phaseOk (hm : Moves s r es time) (hk : s.regs.PhaseOk) (hg : s.regs.gain ≠ 0) : r.PhaseOk := by
  cases hm with
  | rst => exact Regs.clockRecords_of_not_init (by simp [Regs.afterRst])
  | wait => exact hk
  | invalid w e time h hp => exact (Regs.phaseOk_of_idle hp).mp hk
  | command w i start r es time h hp hw hd hn hc => exact hc.phaseOk ((Regs.phaseOk_of_idle hp).mp hk)
  | taken h hp => exact (Regs.phaseOk_of_resp hp).mp hk
  | ready time h hp =>
    obtain ⟨-, hrec, -⟩ := (Regs.phaseOk_of_poll hp).mp hk
    exact hrec
  | readyToRead time h hp hv hc =>
    obtain ⟨hl, hrec, hcmd⟩ := (Regs.phaseOk_of_poll hp).mp hk
    have hread : s.regs.Reading := hcmd.resolve_left (by rcases hc with hc | hc <;> rw [hc] <;> decide)
    exact ⟨hread, hrec.sckq_eq_zero hl hread.2.1⟩
  | notReady time h hp hv hc =>
    obtain ⟨hl, hrec, hcmd⟩ := (Regs.phaseOk_of_poll hp).mp hk
    refine ⟨hl, hrec, hc.imp_right fun hc => ⟨?_, hc⟩⟩
    exact hcmd.resolve_left (by rw [hc]; decide)
  | notReadyToRead time h hp =>
    obtain ⟨-, hrec, -⟩ := (Regs.phaseOk_of_poll hp).mp hk
    exact hrec
  | pollwait time h hp =>
    obtain ⟨hl, hrec, hcmd⟩ := (Regs.phaseOk_of_pollwait hp).mp hk
    exact ⟨hl, hrec, hcmd.imp_right And.left⟩
  | pre time h hp =>
    obtain ⟨hread, -⟩ := (Regs.phaseOk_of_pre hp).mp hk
    exact ⟨hread, rfl, by simp, by simp⟩
  | shHigh sample fall h hp =>
    obtain ⟨hread, -, hb, hs⟩ := (Regs.phaseOk_of_shHigh hp).mp hk
    exact ⟨hread, rfl, bitcnt_succ_toNat hb ▸ shiftIn_toNat_lt s.dout hs⟩
  | shLowBit time h hp hb =>
    obtain ⟨hread, -, hs⟩ := (Regs.phaseOk_of_shLow hp).mp hk
    exact ⟨hread, rfl, hb, hs⟩
  | shLowSample time h hp hb =>
    obtain ⟨hread, -, -⟩ := (Regs.phaseOk_of_shLow hp).mp hk
    exact ⟨hread, rfl, hb, hg, rfl⟩
  | gpHigh fall h hp =>
    obtain ⟨hread, -, hrest⟩ := (Regs.phaseOk_of_gpHigh hp).mp hk
    exact ⟨hread, rfl, hrest⟩
  | gpLowPulse time h hp hg1 =>
    obtain ⟨hread, -, hb, -, hres⟩ := (Regs.phaseOk_of_gpLow hp).mp hk
    exact ⟨hread, rfl, hb, gpcnt_pred_ne_zero hg1, hres⟩
  | gpLowLast time h hp =>
    obtain ⟨⟨-, ha, -⟩, hq, -⟩ := (Regs.phaseOk_of_gpLow hp).mp hk
    exact Regs.clockRecords_of_low ha hq
  | pdLow time h hp =>
    obtain ⟨hl, hc, -⟩ := (Regs.phaseOk_of_pdLow hp).mp hk
    exact ⟨hl, hc, rfl⟩
  | pdHigh time h hp =>
    obtain ⟨-, -, hq⟩ := (Regs.phaseOk_of_pdHigh hp).mp hk
    exact fun _ => ⟨fun _ => rfl, fun _ => hq⟩
  | lowhold time h hp =>
    obtain ⟨-, ha, hq, -⟩ := (Regs.phaseOk_of_lowhold hp).mp hk
    exact Regs.clockRecords_of_low ha hq

/-- `BITCNT` goes up only below 24, `RESULT` takes a sign extension, and `GAIN` and `POLLIV` are the commands' (R22, R24). -/
theorem Moves.rangesOk (hm : Moves s r es time) (hk : s.regs.PhaseOk) (hr : s.regs.RangesOk) : r.RangesOk := by
  obtain ⟨hb, hg, hp, hres⟩ := hr
  cases hm with
  | rst => exact Regs.afterRst_rangesOk _
  | command w i start r es time h hph hw hd hn hc => exact hc.rangesOk ⟨hb, hg, hp, hres⟩
  | pre => exact ⟨Nat.zero_le _, hg, hp, hres⟩
  | shHigh sample fall h hph =>
    obtain ⟨-, -, hlt, -⟩ := (Regs.phaseOk_of_shHigh hph).mp hk
    exact ⟨(bitcnt_succ_toNat hlt).trans_le hlt, hg, hp, hres⟩
  | shLowSample => exact ⟨hb, hg, hp, sext32_range _⟩
  | _ => exact ⟨hb, hg, hp, hres⟩

/-- The registers' invariant is kept by every row. -/
theorem Moves.inv (hm : Moves s r es time) (hi : s.regs.Inv) : r.Inv := by
  obtain ⟨hh, hk, hr⟩ := hi
  have hg : s.regs.gain ≠ 0 := hr.2.1
  exact ⟨hm.handlesOk hh, hm.phaseOk hk hg, hm.rangesOk hk hr⟩

end

/-- Settles O51: each of the three parts of the invariant is kept by every row of `Moves`. -/
theorem stepKeepsRegisterInvariant : Obligations.StepKeepsRegisterInvariant := by
  intro s t hi hs
  obtain ⟨es, -, hm⟩ := moves_of_step hs
  exact hm.inv hi

end Sys2Proof.Machine
end

section
/-! The clock record (R28, R31, R38 items 4 and 5): what was driven on `SCK`, and when, followed through every row of `Moves`. -/

namespace Sys2Proof.Machine

/-- The state that a row of `Moves` leaves, as far as registers, history and time go. -/
def State.moved (s : State) (r : Regs) (es : List Event) (time : Nat) : State where
  regs := r
  world := { s.world with hist := es ++ s.world.hist, now := time }

@[simp] theorem State.moved_regs (s : State) (r : Regs) (es : List Event) (time : Nat) :
    (s.moved r es time).regs = r := rfl

/-- The clock record looks at the registers, the history and the time alone. -/
theorem State.driveOk_moved {s t : State} {es : List Event} (hh : t.world.hist = es ++ s.world.hist) :
    (s.moved t.regs es t.world.now).DriveOk ↔ t.DriveOk := by
  simp only [State.DriveOk, State.lastT, State.moved, hh]

/-- The phases in which a high clock has been high for `T_PD_MIN` (R38 item 5). -/
def Phase.Quiet (p : Phase) : Prop := p = .idle ∨ p = .resp ∨ p = .poll ∨ p = .pollwait

/-- Outside the state Init the clock record claims nothing. -/
theorem State.driveOk_of_not_init {t : State} (hl : t.regs.life ≠ .init) : t.DriveOk := fun h => absurd h hl

/-- The clock was driven just now, to the level the engine holds, and the phase is not one between commands. -/
theorem State.driveOk_of_driven {t : State} (hd : lastDrive t.world.hist = some (t.regs.sckq, t.world.now))
    (hw : t.lastT = some t.world.now) (hq : ¬ t.regs.phase.Quiet) : t.DriveOk :=
  fun _ => ⟨t.world.now, hd, Nat.le_refl _, fun _ => hw, fun h => absurd h hq⟩

section
variable {s t : State}

/-- Nothing was driven, and the clock had settled before: the phase was one between commands, or the clock is low. -/
theorem State.DriveOk.of_undriven (hs : s.DriveOk) (hl : t.regs.life = s.regs.life)
    (hk : t.regs.sckq = s.regs.sckq) (hd : lastDrive t.world.hist = lastDrive s.world.hist)
    (hn : s.world.now ≤ t.world.now) (hp : t.regs.phase ≠ .pdHigh)
    (hq : s.regs.phase.Quiet ∨ s.regs.sckq = 0) : t.DriveOk := by
  intro hinit
  obtain ⟨edge, hdrive, hnow, -, hhigh⟩ := hs (hl ▸ hinit)
  refine ⟨edge, hd.trans (hk ▸ hdrive), hnow.trans hn, fun h => absurd h hp, fun _ h1 => ?_⟩
  rw [hk] at h1
  rcases hq with hq | h0
  · exact (hhigh hq h1).trans hn
  · rw [h0] at h1
    cases h1

/-- The end of a power-down: the clock, high since the latest wire event, has been held for `T_PD_MIN` (R203 T9). -/
theorem State.DriveOk.of_held (hs : s.DriveOk) (hl : t.regs.life = s.regs.life) (hk : t.regs.sckq = s.regs.sckq)
    (hd : lastDrive t.world.hist = lastDrive s.world.hist) (hn : s.world.now ≤ t.world.now)
    (hps : s.regs.phase = .pdHigh) (hp : t.regs.phase ≠ .pdHigh)
    (hheld : ∀ rise, s.lastT = some rise → rise + tPdMin ≤ t.world.now) : t.DriveOk := by
  intro hinit
  obtain ⟨edge, hdrive, hnow, hlast, -⟩ := hs (hl ▸ hinit)
  exact ⟨edge, hd.trans (hk ▸ hdrive), hnow.trans hn, fun h => absurd h hp, fun _ _ => hheld edge (hlast hps)⟩

end

section
variable {s : State} {r : Regs} {es : List Event} {time : Nat}

/-- A command's accept step keeps the clock record: a successful INIT and the power commands drive the clock low, every
other command leaves it as it was or ends outside the state Init. -/
theorem CommandMoves.driveOk {v : Level} {i : Instr} {w : Word} {start : Nat}
    (hm : CommandMoves s.regs v start i r es time) (hs : s.DriveOk) (hp : s.regs.phase = .idle)
    (hn : s.world.now ≤ start) : (s.moved r (es ++ [.accepted w start]) time).DriveOk := by
  have hq : s.regs.phase.Quiet ∨ s.regs.sckq = 0 := .inl (.inl hp)
  cases hm with
  | initGain d c g hl => exact State.driveOk_of_not_init (by simp [hl])
  | initOpen d c g p hl => exact State.driveOk_of_not_init (by simp [hl])
  | initData | initClock | teardown => exact State.driveOk_of_not_init (by simp)
  | initDone | pwrdown | pwrup => exact State.driveOk_of_driven rfl rfl (by simp [Phase.Quiet])
  | isready time hl hn' => exact hs.of_undriven rfl rfl rfl (hn.trans hn') (by simp) hq
  | illegal | waitready | read | tryread | setgainBad | setgain =>
    exact hs.of_undriven rfl rfl rfl hn (by simp) hq

/-- Every row keeps the clock record. The registers' invariant says that the clock is low where a frame or a low hold ends. -/
theorem Moves.driveOk (hm : Moves s r es time) (hk : s.regs.PhaseOk) (hs : s.DriveOk) :
    (s.moved r es time).DriveOk := by
  cases hm with
  | rst => exact State.driveOk_of_not_init (by simp [Regs.afterRst])
  | wait h hp =>
    exact hs.of_undriven rfl rfl rfl (Nat.le_refl _) (by rcases hp with hp | hp <;> simp [hp])
      (.inl (hp.imp_right .inl))
  | invalid w e time h hp hw hd hn => exact hs.of_undriven rfl rfl rfl hn (by simp) (.inl (.inl hp))
  | command w i start r es time h hp hw hd hn hc => exact hc.driveOk hs hp hn
  | taken h hp => exact hs.of_undriven rfl rfl rfl (Nat.le_refl _) (by simp) (.inl (.inr (.inl hp)))
  | ready time h hp hv hc hn | readyToRead time h hp hv hc hn | notReady time h hp hv hc hn
  | notReadyToRead time h hp hv hc hn =>
    exact hs.of_undriven rfl rfl rfl hn (by simp) (.inl (.inr (.inr (.inl hp))))
  | pollwait time h hp hn =>
    exact hs.of_undriven rfl rfl rfl hn (by simp) (.inl (.inr (.inr (.inr hp))))
  | pre | shHigh | shLowBit | shLowSample | gpHigh | gpLowPulse | pdLow =>
    exact State.driveOk_of_driven rfl rfl (by simp [Phase.Quiet])
  | gpLowLast time h hp hg hn =>
    obtain ⟨-, hlow, -⟩ := (Regs.phaseOk_of_gpLow hp).mp hk
    exact hs.of_undriven rfl rfl rfl hn (by simp) (.inr hlow)
  | pdHigh time h hp hn hd => exact hs.of_held rfl rfl rfl hn hp (by simp) hd
  | lowhold time h hp hn =>
    obtain ⟨-, -, hlow, -⟩ := (Regs.phaseOk_of_lowhold hp).mp hk
    exact hs.of_undriven rfl rfl rfl hn (by simp) (.inr hlow)

end

/-- Settles O56: every row of `Moves` keeps the registers' invariant and, with it, the clock record. -/
theorem stepKeepsClockRecord : Obligations.StepKeepsClockRecord := by
  intro s t hi hs hst
  obtain ⟨es, hh, hm⟩ := moves_of_step hst
  have hk : s.regs.PhaseOk := hi.2.1
  exact ⟨hm.inv hi, (State.driveOk_moved hh).mp (hm.driveOk hk hs)⟩

/-- `GAIN`, which is not 0, is a pulse count (R27). -/
theorem gain_toNat_range {g : BitVec 2} (h : g ≠ 0) : 1 ≤ g.toNat ∧ g.toNat ≤ 3 := by
  have hlt := g.isLt
  have hne : g.toNat ≠ 0 := fun hz => h (BitVec.eq_of_toNat_eq hz)
  omega

section
variable {s : State}

/-- While the clock line is held its pin carries `SCKQ` (R100). -/
theorem State.sckPin_of_held (h : s.regs.hclk.isSome = true) : s.sckPin = some s.regs.sckq := if_pos h

/-- A clock line that is not held is not driven (R100). -/
theorem State.sckPin_of_not_held (h : s.regs.hclk = none) : s.sckPin = none := by
  simp [State.sckPin, h]

/-- In IDLE, initialised, the engine holds the clock high exactly while a chip that R90 describes is asleep. -/
theorem State.DriveOk.sckq_eq_one_iff (hs : s.DriveOk) (hl : s.regs.life = .init) (hp : s.regs.phase = .idle) :
    s.regs.sckq = 1 ↔ s.ChipAsleep := by
  obtain ⟨edge, hdrive, -, -, hhigh⟩ := hs hl
  constructor
  · intro h1
    exact ⟨edge, h1 ▸ hdrive, hhigh (.inl hp) h1⟩
  · rintro ⟨edge', hdrive', -⟩
    rw [hdrive, Option.some_inj, Prod.mk_inj] at hdrive'
    exact hdrive'.1

end

/-- Settles O57: the clock record links `PWR` to `SCKQ`, and the history links `SCKQ` to what the chip sees. -/
theorem idleRecordsFollowTheChip : Obligations.IdleRecordsFollowTheChip := by
  rintro s ⟨hh, hk, hbit, hgain, -⟩ hs hp
  have hrec : s.regs.ClockRecords := (Regs.phaseOk_of_idle hp).mp hk
  refine ⟨fun hl => ?_, fun hl => ?_, fun hl => ?_, hbit⟩
  · obtain ⟨hctrl, hdata, hclk⟩ := (Regs.handlesOk_of_init hl).mp hh
    refine ⟨(hrec hl).symm.trans (hs.sckq_eq_one_iff hl hp), fun ha => ?_, fun hd => ?_, hctrl, hdata,
      gain_toNat_range hgain⟩
    · rw [State.sckPin_of_held hclk, hrec.sckq_eq_zero hl ha]
    · rw [State.sckPin_of_held hclk, (hrec hl).mpr hd]
  · obtain ⟨hctrl, hclk⟩ := (Regs.handlesOk_of_partlyInit hl).mp hh
    exact ⟨hctrl, State.sckPin_of_not_held hclk⟩
  · obtain ⟨hctrl, hdata, hclk⟩ := (Regs.handlesOk_of_uninit hl).mp hh
    exact ⟨hctrl, hdata, State.sckPin_of_not_held hclk⟩

end Sys2Proof.Machine
end

section
/-! Who writes which register (R43, R21 to R27): for each group of registers, the rows of `CommandMoves` and of `Moves` that
write it; every other row leaves it as it was. -/

namespace Sys2Proof.Machine

section
variable {r r' : Regs} {v : Level} {start time : Nat} {i : Instr} {es : List Event}

/-- No command's own step writes the registers of a frame (R43). -/
theorem CommandMoves.frame_regs_eq (hm : CommandMoves r v start i r' es time) :
    r'.shreg = r.shreg ∧ r'.bitcnt = r.bitcnt ∧ r'.gpcnt = r.gpcnt ∧ r'.result = r.result := by
  cases hm <;> exact ⟨rfl, rfl, rfl, rfl⟩

/-- INIT alone writes `DPIN` and `CPIN` (R25, R26). -/
theorem CommandMoves.init_or_pins_eq (hm : CommandMoves r v start i r' es time) :
    (∃ d c g, i = .init d c g) ∨ (r'.dpin = r.dpin ∧ r'.cpin = r.cpin) := by
  cases hm with
  | initOpen d c g | initData d c g | initClock d c g | initDone d c g => exact .inl ⟨d, c, g, rfl⟩
  | _ => exact .inr ⟨rfl, rfl⟩

/-- INIT and SETGAIN alone write `GAIN` (R27). -/
theorem CommandMoves.init_or_setgain_or_gain_eq (hm : CommandMoves r v start i r' es time) :
    (∃ d c g, i = .init d c g) ∨ (∃ code, i = .setgain code) ∨ r'.gain = r.gain := by
  cases hm with
  | initOpen d c g | initData d c g | initClock d c g | initDone d c g => exact .inl ⟨d, c, g, rfl⟩
  | setgain code => exact .inr (.inl ⟨code, rfl⟩)
  | _ => exact .inr (.inr rfl)

/-- INIT and PWRUP alone write `PWR` in their own step (R28, R190). -/
theorem CommandMoves.init_or_pwrup_or_pwr_eq (hm : CommandMoves r v start i r' es time) :
    (∃ d c g, i = .init d c g) ∨ i = .pwrup ∨ r'.pwr = r.pwr := by
  cases hm with
  | initDone d c g => exact .inl ⟨d, c, g, rfl⟩
  | pwrup => exact .inr (.inl rfl)
  | _ => exact .inr (.inr rfl)

/-- INIT and the two power commands alone drive the clock in their own step (R31). -/
theorem CommandMoves.init_or_power_or_sckq_eq (hm : CommandMoves r v start i r' es time) :
    (∃ d c g, i = .init d c g) ∨ i = .pwrup ∨ i = .pwrdown ∨ r'.sckq = r.sckq := by
  cases hm with
  | initDone d c g => exact .inl ⟨d, c, g, rfl⟩
  | pwrup => exact .inr (.inl rfl)
  | pwrdown => exact .inr (.inr (.inl rfl))
  | _ => exact .inr (.inr (.inr rfl))

/-- INIT and TEARDOWN alone write `LIFE` and the handles (R29, R30). -/
theorem CommandMoves.init_or_teardown_or_handles_eq (hm : CommandMoves r v start i r' es time) :
    (∃ d c g, i = .init d c g) ∨ i = .teardown ∨
      (r'.life = r.life ∧ r'.hctrl = r.hctrl ∧ r'.hdata = r.hdata ∧ r'.hclk = r.hclk) := by
  cases hm with
  | initData d c g | initClock d c g | initDone d c g => exact .inl ⟨d, c, g, rfl⟩
  | teardown => exact .inr (.inl rfl)
  | _ => exact .inr (.inr ⟨rfl, rfl, rfl, rfl⟩)

/-- WAITREADY and READ alone write `POLLIV` (R33). -/
theorem CommandMoves.waitready_or_read_or_polliv_eq (hm : CommandMoves r v start i r' es time) :
    (∃ iv, i = .waitready iv) ∨ i = .read ∨ r'.polliv = r.polliv := by
  cases hm with
  | waitready iv => exact .inl ⟨iv, rfl⟩
  | read => exact .inr (.inl rfl)
  | _ => exact .inr (.inr rfl)

end

/-! ## The acquisition calls -/

/-- No acquisition call was made: no answer used, no handle issued (R92; log 4, log 5). -/
def World.SameCalls (w w' : World) : Prop := w'.acqs = w.acqs ∧ w'.handles = w.handles

theorem State.raise_sameCalls (s : State) (st : Status) : s.world.SameCalls (s.raise st).world := ⟨rfl, rfl⟩

/-- The check of `LIFE` makes no call of its own. -/
theorem State.requireInit_sameCalls {s : State} {body : State → State} (h : s.world.SameCalls (body s).world) :
    s.world.SameCalls (s.requireInit body).world := by
  by_cases hl : s.regs.life = .init
  · rwa [State.requireInit_of_init body hl]
  · rw [State.requireInit_of_not_init body hl]
    exact s.raise_sameCalls _

/-- The check of `PWR` makes no call of its own. -/
theorem State.requireActive_sameCalls {s : State} {body : State → State} (h : s.world.SameCalls (body s).world) :
    s.world.SameCalls (s.requireActive body).world := by
  by_cases ha : s.regs.pwr = .active
  · rwa [State.requireActive_of_active body ha]
  · rw [State.requireActive_of_not_active body ha]
    exact s.raise_sameCalls _

/-- INIT alone makes acquisition calls (R43, R62, R64, R65). -/
theorem exec_init_or_sameCalls {i : Instr} {s t : State} (he : exec i s = .next t) :
    (∃ d c g, i = .init d c g) ∨ s.world.SameCalls t.world := by
  cases i with
  | init d c g => exact .inl ⟨d, c, g, rfl⟩
  | teardown =>
    cases he
    exact .inr (by simp [World.SameCalls])
  | isready | waitready iv | pwrdown | pwrup =>
    cases he
    exact .inr (State.requireInit_sameCalls (s := s.latch _) ⟨rfl, rfl⟩)
  | read | tryread =>
    cases he
    exact .inr (State.requireInit_sameCalls (s := s.latch _) (State.requireActive_sameCalls ⟨rfl, rfl⟩))
  | setgain code =>
    cases he
    refine .inr (State.requireInit_sameCalls (s := s.latch _) ?_)
    cases pulses code.toNat <;> exact ⟨rfl, rfl⟩

/-- Settles O44: a register that a command changes is in its row of the table of R43. -/
theorem commandsWriteOnlyTheirRegisters : Obligations.CommandsWriteOnlyTheirRegisters := by
  intro i s t he
  obtain ⟨t', es, he', -, hm⟩ := exec_moves i s
  cases he.symm.trans he'
  obtain ⟨hshreg, hbitcnt, hgpcnt, hresult⟩ := hm.frame_regs_eq
  have not_init (h : i.mnemonic ≠ .init) : ¬ ∃ d c g, i = .init d c g := by
    rintro ⟨d, c, g, rfl⟩
    exact h rfl
  have ne_of_mnemonic {j : Instr} (h : i.mnemonic ≠ j.mnemonic) : i ≠ j := fun hij => h (congrArg _ hij)
  refine ⟨hshreg, hbitcnt, hgpcnt, hresult, fun h1 => ?_, fun h1 h2 => ?_, fun h1 h2 => ?_, fun h1 h2 h3 => ?_,
    fun h1 h2 => ?_, fun h1 h2 => ?_⟩
  · exact hm.init_or_pins_eq.resolve_left (not_init h1)
  · refine (hm.init_or_setgain_or_gain_eq.resolve_left (not_init h1)).resolve_left ?_
    rintro ⟨code, rfl⟩
    exact h2 rfl
  · exact (hm.init_or_pwrup_or_pwr_eq.resolve_left (not_init h1)).resolve_left (ne_of_mnemonic h2)
  · exact ((hm.init_or_power_or_sckq_eq.resolve_left (not_init h1)).resolve_left (ne_of_mnemonic h2)).resolve_left
      (ne_of_mnemonic h3)
  · obtain ⟨hlife, hctrl, hdata, hclk⟩ :=
      (hm.init_or_teardown_or_handles_eq.resolve_left (not_init h1)).resolve_left (ne_of_mnemonic h2)
    obtain ⟨hacqs, hhandles⟩ := (exec_init_or_sameCalls he).resolve_left (not_init h1)
    exact ⟨hlife, hctrl, hdata, hclk, hacqs, hhandles⟩
  · refine (hm.waitready_or_read_or_polliv_eq.resolve_left ?_).resolve_left (ne_of_mnemonic h2)
    rintro ⟨iv, rfl⟩
    exact h1 rfl

/-! ## Every step without a reset -/

section
variable {s : State} {r : Regs} {es : List Event} {time : Nat}

/-- Without a reset the configuration registers change only in the row of a command (R25 to R27). -/
theorem Moves.command_or_config_eq (hm : Moves s r es time) (h : s.pins.rst = false) :
    (s.regs.phase = .idle ∧ ∃ w i start time' es', s.pins.cmd = some w ∧ decode w = .ok i ∧
      CommandMoves s.regs s.dout start i r es' time') ∨
    (r.dpin = s.regs.dpin ∧ r.cpin = s.regs.cpin ∧ r.gain = s.regs.gain) := by
  cases hm with
  | rst time hr => exact absurd (h.symm.trans hr) (by decide)
  | command w i start r es' time' _ hp hw hd hn hc => exact .inl ⟨hp, w, i, start, _, es', hw, hd, hc⟩
  | _ => exact .inr ⟨rfl, rfl, rfl⟩

/-- `SHREG` and `BITCNT` are written where a frame begins and where a sample is taken (R21, R22). -/
theorem Moves.frame_phase_or_shift_eq (hm : Moves s r es time) (h : s.pins.rst = false) :
    (s.regs.phase = .pre ∨ s.regs.phase = .shHigh) ∨ (r.shreg = s.regs.shreg ∧ r.bitcnt = s.regs.bitcnt) := by
  cases hm with
  | rst time hr => exact absurd (h.symm.trans hr) (by decide)
  | command w i start r es time _ hp hw hd hn hc =>
    obtain ⟨hshreg, hbitcnt, -⟩ := hc.frame_regs_eq
    exact .inr ⟨hshreg, hbitcnt⟩
  | pre time _ hp => exact .inl (.inl hp)
  | shHigh sample fall _ hp => exact .inl (.inr hp)
  | _ => exact .inr ⟨rfl, rfl⟩

/-- `RESULT` is written where the data phase ends (R24). -/
theorem Moves.sample_formed_or_result_eq (hm : Moves s r es time) (h : s.pins.rst = false) :
    (s.regs.phase = .shLow ∧ s.regs.bitcnt = 24 ∧ r.result = sext32 s.regs.shreg) ∨ r.result = s.regs.result := by
  cases hm with
  | rst time hr => exact absurd (h.symm.trans hr) (by decide)
  | command w i start r es time _ hp hw hd hn hc =>
    obtain ⟨-, -, -, hresult⟩ := hc.frame_regs_eq
    exact .inr hresult
  | shLowSample time _ hp hb => exact .inl ⟨hp, hb, rfl⟩
  | _ => exact .inr rfl

/-- `GPCNT` is loaded where the data phase ends and counted down where a gain pulse is complete (R23). -/
theorem Moves.gain_counted_or_gpcnt_eq (hm : Moves s r es time) (h : s.pins.rst = false) :
    (s.regs.phase = .shLow ∧ s.regs.bitcnt = 24 ∧ r.gpcnt = s.regs.gain) ∨
    (s.regs.phase = .gpLow ∧ r.gpcnt.toNat + 1 = s.regs.gpcnt.toNat) ∨ r.gpcnt = s.regs.gpcnt := by
  cases hm with
  | rst time hr => exact absurd (h.symm.trans hr) (by decide)
  | command w i start r es time _ hp hw hd hn hc =>
    obtain ⟨-, -, hgpcnt, -⟩ := hc.frame_regs_eq
    exact .inr (.inr hgpcnt)
  | shLowSample time _ hp hb => exact .inl ⟨hp, hb, rfl⟩
  | gpLowPulse time _ hp hg =>
    have hpred := gpcnt_pred_toNat (n := s.regs.gpcnt) (by omega)
    exact .inr (.inl ⟨hp, by rw [hpred]; omega⟩)
  | gpLowLast time _ hp hg => exact .inr (.inl ⟨hp, by rw [hg]; rfl⟩)
  | _ => exact .inr (.inr rfl)

end

/-- Settles O45: the only row that writes the configuration is a command's, and of the commands INIT, and SETGAIN for `GAIN`. -/
theorem configurationChangesOnlyByCommand : Obligations.ConfigurationChangesOnlyByCommand := by
  intro s t hs hr
  obtain ⟨es, -, hm⟩ := moves_of_step hs
  rcases hm.command_or_config_eq hr with ⟨hp, w, i, start, time, es', hw, hd, hc⟩ | ⟨hdpin, hcpin, hgain⟩
  · refine ⟨fun hne => ⟨hp, ?_⟩, fun hne => ⟨hp, w, hw, ?_⟩⟩
    · obtain ⟨d, c, g, rfl⟩ := hc.init_or_pins_eq.resolve_right fun heq =>
        hne.elim (absurd heq.1) (absurd heq.2)
      exact ⟨w, d, c, g, hw, hd⟩
    · rcases hc.init_or_setgain_or_gain_eq with ⟨d, c, g, rfl⟩ | ⟨code, rfl⟩ | heq
      · exact .inl ⟨d, c, g, hd⟩
      · exact .inr ⟨code, hd⟩
      · exact absurd heq hne
  · exact ⟨fun hne => (hne.elim (absurd hdpin) (absurd hcpin)), fun hne => absurd hgain hne⟩

/-- Settles O46: the rows that write the registers of a frame. -/
theorem sampleRegistersChangeOnlyInFrames : Obligations.SampleRegistersChangeOnlyInFrames := by
  intro s t hs hr
  obtain ⟨es, -, hm⟩ := moves_of_step hs
  refine ⟨fun hne => ?_, fun hne => ?_, fun hne => ?_⟩
  · exact (hm.frame_phase_or_shift_eq hr).resolve_right fun heq => hne.elim (absurd heq.1) (absurd heq.2)
  · exact (hm.sample_formed_or_result_eq hr).resolve_right hne
  · exact (hm.gain_counted_or_gpcnt_eq hr).imp_right fun h => h.resolve_right hne

/-- Settles O47: outside `PRE` and `SH_HIGH` the shift register stands still, and `RESULT` changes only to its extension; in
`GP_LOW` the invariant gives the equation before the step. -/
theorem resultMatchesTheShiftRegister : Obligations.ResultMatchesTheShiftRegister := by
  rintro s t ⟨-, hk, -⟩ hs hr
  obtain ⟨es, -, hm⟩ := moves_of_step hs
  have keeps (hpre : s.regs.phase ≠ .pre) (hsh : s.regs.phase ≠ .shHigh)
      (heq : s.regs.result = sext32 s.regs.shreg) : t.regs.result = sext32 t.regs.shreg := by
    obtain ⟨hshreg, -⟩ := (hm.frame_phase_or_shift_eq hr).resolve_left fun h => h.elim hpre hsh
    rw [hshreg]
    rcases hm.sample_formed_or_result_eq hr with ⟨-, -, hres⟩ | hres
    · exact hres
    · exact hres.trans heq
  refine ⟨fun hp => ?_, keeps⟩
  obtain ⟨-, -, -, -, hres⟩ := (Regs.phaseOk_of_gpLow hp).mp hk
  exact keeps (by simp [hp]) (by simp [hp]) hres

end Sys2Proof.Machine
end

section
/-! The state after reset (R41): it meets every invariant. -/

namespace Sys2Proof.Machine

/-- After reset the life-cycle state is Uninit (R41). -/
theorem State.reset_life : State.reset.regs.life = .uninit := rfl

/-- The values that log 9 chooses lie within the ranges of R20. -/
theorem Regs.reset_rangesOk : Regs.reset.RangesOk := by
  unfold Regs.RangesOk
  decide

/-- Settles O9. -/
theorem resetStateIsIdleUninit : Obligations.ResetStateIsIdleUninit := ⟨rfl, rfl, rfl, rfl, rfl, rfl, rfl⟩

/-- Settles O50: nothing is held, `LIFE` is Uninit, and the chosen values are in range. -/
theorem resetMeetsRegisterInvariant : Obligations.ResetMeetsRegisterInvariant :=
  ⟨⟨rfl, rfl, rfl⟩, Regs.clockRecords_of_not_init (by simp [State.reset_life]), Regs.reset_rangesOk⟩

/-- Settles O53: the history is empty, and in Uninit no low clock is claimed to have settled. -/
theorem resetMeetsPulseTiming : Obligations.ResetMeetsPulseTiming := by
  have hlow : State.reset.LowSettled := fun h => absurd h (by simp [State.reset_life])
  exact ⟨resetMeetsRegisterInvariant, trivial, trivial, trivial, hlow⟩

/-- Settles O55: in Uninit the clock record claims nothing. -/
theorem resetMeetsClockRecord : Obligations.ResetMeetsClockRecord :=
  State.driveOk_of_not_init (by simp [State.reset_life])

/-- Settles O58: the ledger of the empty history holds nothing, and neither do the flags. -/
theorem resetMeetsTheLedger : Obligations.ResetMeetsTheLedger := by
  intro resource
  cases resource <;> rfl

end Sys2Proof.Machine
end

section
/-! The pulse timing (R73, R291, R292): the order of time, the low gaps and the high times, each followed through every row of
`Moves`, and where the present stands against the history. -/

namespace Sys2Proof.Machine

section
variable {hist es : List Event}

/-- A later bound bounds the same history (R73). -/
theorem TimesOrdered.mono {a b : Nat} (h : TimesOrdered hist a) (hab : a ≤ b) : TimesOrdered hist b := by
  induction hist with
  | nil => trivial
  | cons e es ih =>
    cases ht : e.time with
    | none =>
      simp only [TimesOrdered, ht] at h ⊢
      exact ih h
    | some t =>
      simp only [TimesOrdered, ht] at h ⊢
      exact ⟨h.1.trans hab, h.2⟩

/-- Events without a time stamp do not bear on the order of time. -/
theorem TimesOrdered.append_untimed {b : Nat} (h : TimesOrdered hist b) (hes : ∀ e ∈ es, e.time = none) :
    TimesOrdered (es ++ hist) b := by
  induction es with
  | nil => exact h
  | cons e es ih =>
    rw [List.forall_mem_cons] at hes
    simpa only [List.cons_append, TimesOrdered, hes.1] using ih hes.2

/-- Events without a rising edge keep the low gaps (R291). -/
theorem LowGapsOk.append_of_no_rise (h : LowGapsOk hist) (hes : ∀ t, Event.set 1 t ∉ es) :
    LowGapsOk (es ++ hist) := by
  induction es with
  | nil => exact h
  | cons e es ih =>
    refine ⟨?_, ih fun t ht => hes t (List.mem_cons_of_mem e ht)⟩
    cases e with
    | set v t =>
      intro hv
      exact absurd (hv ▸ List.mem_cons_self) (hes t)
    | _ => trivial

/-- A rising edge at least `T_LOW_MIN` after the clock was driven low keeps the low gaps (R291). -/
theorem LowGapsOk.rise {time : Nat} (h : LowGapsOk hist)
    (hgap : ∀ low, lastLowTime hist = some low → low + tLowMin ≤ time) : LowGapsOk (.set 1 time :: hist) :=
  ⟨fun _ => hgap, h⟩

/-- Events without a falling edge end no pulse, so they keep the high times (R292). -/
theorem HighTimesOk.append_of_no_fall (h : HighTimesOk hist) (hes : ∀ t, Event.set 0 t ∉ es) :
    HighTimesOk (es ++ hist) := by
  induction es with
  | nil => exact h
  | cons e es ih =>
    refine ⟨?_, ih fun t ht => hes t (List.mem_cons_of_mem e ht)⟩
    split
    · rintro rfl
      exact absurd List.mem_cons_self (hes _)
    · rintro rfl
      exact absurd List.mem_cons_self (hes _)
    · trivial

/-- The falling edge of a data pulse, the sample and the edge within their bounds, keeps the high times (R71, R292). -/
theorem HighTimesOk.data_fall {rise sample fall : Nat} {b : Level} (h : HighTimesOk hist)
    (hrise : hist.head? = some (.set 1 rise)) (hs : rise + tHighMin ≤ sample) (hf : sample ≤ fall)
    (hmax : fall ≤ rise + tHighMax) : HighTimesOk (.set 0 fall :: .get b sample :: hist) := by
  obtain ⟨before, rfl⟩ := List.head?_eq_some_iff.mp hrise
  exact ⟨fun _ _ => ⟨hs, hf, hmax⟩, trivial, h⟩

/-- The falling edge of a gain pulse, within its bounds, keeps the high times (R71, R292). -/
theorem HighTimesOk.gain_fall {rise fall : Nat} (h : HighTimesOk hist)
    (hrise : hist.head? = some (.set 1 rise)) (hf : rise + tHighMin ≤ fall) (hmax : fall ≤ rise + tHighMax) :
    HighTimesOk (.set 0 fall :: hist) := by
  obtain ⟨before, rfl⟩ := List.head?_eq_some_iff.mp hrise
  exact ⟨fun _ _ => ⟨hf, hmax⟩, h⟩

end

/-! ## Where the present stands -/

section
variable {s t : State}

theorem State.clockTimed_of_high (hp : s.regs.phase = .shHigh ∨ s.regs.phase = .gpHigh) :
    s.ClockTimed ↔ s.world.hist.head? = some (.set 1 s.world.now) := by
  rcases hp with hp | hp <;> simp only [State.ClockTimed, hp]

theorem State.clockTimed_of_low (hp : s.regs.phase = .shLow ∨ s.regs.phase = .gpLow ∨ s.regs.phase = .pdLow ∨
    s.regs.phase = .lowhold) : s.ClockTimed ↔ s.JustLow := by
  rcases hp with hp | hp | hp | hp <;> simp only [State.ClockTimed, hp]

theorem State.clockTimed_of_quiet (hp : s.regs.phase.Quiet) : s.ClockTimed ↔ s.LowSettled := by
  rcases hp with hp | hp | hp | hp <;> simp only [State.ClockTimed, hp]

theorem State.clockTimed_of_pre (hp : s.regs.phase = .pre) : s.ClockTimed ↔ s.LowSettled := by
  simp only [State.ClockTimed, hp]

/-- A rising edge made now is the latest wire event. -/
theorem State.lastT_of_rise {time : Nat} (h : s.world.hist.head? = some (.set 1 time)) : s.lastT = some time := by
  obtain ⟨before, hh⟩ := List.head?_eq_some_iff.mp h
  rw [State.lastT, hh]
  rfl

/-- Outside the state Init no low clock is claimed to have settled. -/
theorem State.lowSettled_of_not_init (hl : s.regs.life ≠ .init) : s.LowSettled := fun h => absurd h hl

/-- A high clock is not claimed to have settled low. -/
theorem State.lowSettled_of_high (hq : s.regs.sckq = 1) : s.LowSettled := by
  intro _ h0
  rw [hq] at h0
  cases h0

/-- A settled low clock that is not driven stays settled. -/
theorem State.LowSettled.of_undriven (h : s.LowSettled) (hl : t.regs.life = s.regs.life)
    (hq : t.regs.sckq = s.regs.sckq) (hlow : lastLowTime t.world.hist = lastLowTime s.world.hist)
    (hn : s.world.now ≤ t.world.now) : t.LowSettled := by
  intro hinit h0 low hlast
  exact (h (hl ▸ hinit) (hq ▸ h0) low (hlow ▸ hlast)).trans hn

/-- A guard on the latest wire event is, in a low phase, a guard on the falling edge (R291). -/
theorem State.JustLow.gap {d time : Nat} (h : s.JustLow) (hd : ∀ low, s.lastT = some low → low + d ≤ time) :
    ∀ low, lastLowTime s.world.hist = some low → low + d ≤ time := by
  obtain ⟨edge, hlast, hlow⟩ := h
  intro low hl
  rw [hlow, Option.some_inj] at hl
  exact hl ▸ hd edge hlast

/-- In `PRE` a read is active, so its low clock has settled (R291). -/
theorem State.ClockTimed.gap_of_pre (hc : s.ClockTimed) (hk : s.regs.PhaseOk) (hp : s.regs.phase = .pre)
    {time : Nat} (hn : s.world.now ≤ time) :
    ∀ low, lastLowTime s.world.hist = some low → low + tLowMin ≤ time := by
  obtain ⟨⟨hl, -⟩, hq⟩ := (Regs.phaseOk_of_pre hp).mp hk
  intro low hlast
  exact ((State.clockTimed_of_pre hp).mp hc hl hq low hlast).trans hn

/-- The position of the present looks at the registers, the history and the time alone. -/
theorem State.clockTimed_moved {es : List Event} (hh : t.world.hist = es ++ s.world.hist) :
    (s.moved t.regs es t.world.now).ClockTimed ↔ t.ClockTimed := by
  simp only [State.ClockTimed, State.LowSettled, State.JustLow, State.lastT, State.moved, hh]

end

/-! ## A command's accept step -/

section
variable {r r' : Regs} {v : Level} {i : Instr} {start time : Nat} {es : List Event}

/-- The releases of TEARDOWN carry no time stamp (R63, R68). -/
theorem releases_untimed (clk data ctrl : Bool) : ∀ e ∈ (if ctrl then [Event.closed] else []) ++
    (if data then [.released .data] else []) ++ (if clk then [.released .clk] else []), e.time = none := by
  cases clk <;> cases data <;> cases ctrl <;> decide

/-- Only the power commands drive the clock in their own step, and they drive it low (R191, R194). -/
theorem CommandMoves.power_or_no_set (hm : CommandMoves r v start i r' es time) :
    es = [.set 0 start] ∨ ∀ level t, Event.set level t ∉ es := by
  cases hm with
  | teardown =>
    refine .inr fun level t => ?_
    rw [List.mem_cons]
    rintro (h | h)
    · cases h
    · cases releases_untimed _ _ _ _ h
  | pwrdown | pwrup => exact .inl rfl
  | _ => exact .inr (by simp)

/-- A command's events follow the accept in order of time. -/
theorem CommandMoves.timesOrdered (hm : CommandMoves r v start i r' es time) {hist : List Event}
    (h : TimesOrdered hist start) : TimesOrdered (es ++ hist) time := by
  cases hm with
  | initClock d c g p h0 h1 time hl hp hn => exact ⟨Nat.le_refl _, Nat.le_refl _, h.mono hn⟩
  | initDone d c g p h0 h1 h2 time hl hp hn => exact ⟨Nat.le_refl _, h.mono hn⟩
  | teardown => exact ⟨Nat.le_refl _, h.append_untimed (releases_untimed _ _ _)⟩
  | isready time hl hn => exact ⟨Nat.le_refl _, Nat.le_refl _, h.mono hn⟩
  | waitready | read | tryread => exact h
  | _ => exact ⟨Nat.le_refl _, h⟩

end

/-! ## Every step -/

section
variable {s : State} {r : Regs} {es : List Event} {time : Nat}

/-- Every row appends its events in order of time (R73). -/
theorem Moves.timesOrdered (hm : Moves s r es time) (h : TimesOrdered s.world.hist s.world.now) :
    TimesOrdered (es ++ s.world.hist) time := by
  cases hm with
  | wait | taken => exact h
  | pollwait time hr hp hn => exact h.mono hn
  | command w i start r es time hr hp hw hd hn hc =>
    rw [List.append_assoc]
    exact hc.timesOrdered ⟨Nat.le_refl _, h.mono hn⟩
  | invalid w e time hr hp hw hd hn | ready time hr hp hv hc hn | notReadyToRead time hr hp hv hc hn =>
    exact ⟨Nat.le_refl _, Nat.le_refl _, h.mono hn⟩
  | shHigh sample fall hr hp hn hs => exact ⟨Nat.le_refl _, hs, h.mono hn⟩
  | rst time hr hn | readyToRead time hr hp hv hc hn | notReady time hr hp hv hc hn | pre time hr hp hn
  | shLowBit time hr hp hb hn | shLowSample time hr hp hb hn | gpHigh time hr hp hn | gpLowPulse time hr hp hg hn
  | gpLowLast time hr hp hg hn | pdLow time hr hp hn | pdHigh time hr hp hn | lowhold time hr hp hn =>
    exact ⟨Nat.le_refl _, h.mono hn⟩

/-- A rising edge is made from `PRE`, where the low clock has settled, or at the end of a low hold (R291). -/
theorem Moves.lowGapsOk (hm : Moves s r es time) (hk : s.regs.PhaseOk) (hc : s.ClockTimed)
    (h : LowGapsOk s.world.hist) : LowGapsOk (es ++ s.world.hist) := by
  cases hm with
  | pre time hr hp hn => exact h.rise (hc.gap_of_pre hk hp hn)
  | shLowBit time hr hp hb hn hd | shLowSample time hr hp hb hn hd | gpLowPulse time hr hp hb hn hd
  | pdLow time hr hp hn hd =>
    have hjust : s.JustLow := (State.clockTimed_of_low (by simp [hp])).mp hc
    exact h.rise (hjust.gap hd)
  | command w i start r es time hr hp hw hd hn hm =>
    refine h.append_of_no_rise fun t => ?_
    rcases hm.power_or_no_set with rfl | hset
    · simp
    · simp [hset]
  | _ => exact h.append_of_no_rise (by simp)

/-- A falling edge ends a pulse whose rising edge was made now, or follows the accept of a power command, and then it
ends no pulse (R292). -/
theorem Moves.highTimesOk (hm : Moves s r es time) (hc : s.ClockTimed) (h : HighTimesOk s.world.hist) :
    HighTimesOk (es ++ s.world.hist) := by
  cases hm with
  | shHigh sample fall hr hp hn hs hd =>
    have hrise := (State.clockTimed_of_high (.inl hp)).mp hc
    obtain ⟨hmin, hmax⟩ := hd _ (State.lastT_of_rise hrise)
    exact h.data_fall hrise hmin hs (hmax (Nat.le_add_right _ _))
  | gpHigh fall hr hp hn hd =>
    have hrise := (State.clockTimed_of_high (.inr hp)).mp hc
    obtain ⟨hmin, hmax⟩ := hd _ (State.lastT_of_rise hrise)
    exact h.gain_fall hrise hmin (hmax (Nat.le_add_right _ _))
  | command w i start r es time hr hp hw hd hn hm =>
    rcases hm.power_or_no_set with rfl | hset
    · exact ⟨trivial, trivial, h⟩
    · exact h.append_of_no_fall (by simp [hset])
  | _ => exact h.append_of_no_fall (by simp)

/-- A command leaves `IDLE` for a low hold, the clock driven low, or for a phase in which a low clock has settled. -/
theorem CommandMoves.clockTimed {v : Level} {i : Instr} {w : Word} {start : Nat}
    (hm : CommandMoves s.regs v start i r es time) (hs : s.LowSettled) (hn : s.world.now ≤ start) :
    (s.moved r (es ++ [.accepted w start]) time).ClockTimed := by
  cases hm with
  | initGain d c g hl | initOpen d c g p hl => exact State.lowSettled_of_not_init (by simp [hl])
  | initData | initClock | teardown => exact State.lowSettled_of_not_init (by simp)
  | initDone | pwrdown | pwrup => exact ⟨_, rfl, rfl⟩
  | isready time hl hn' => exact hs.of_undriven rfl rfl rfl (hn.trans hn')
  | illegal | waitready | read | tryread | setgainBad | setgain => exact hs.of_undriven rfl rfl rfl hn

/-- Every row leads to where the present stands in the next phase (R203). -/
theorem Moves.clockTimed (hm : Moves s r es time) (hk : s.regs.PhaseOk) (hc : s.ClockTimed) :
    (s.moved r es time).ClockTimed := by
  have settled (hp : s.regs.phase.Quiet) : s.LowSettled := (State.clockTimed_of_quiet hp).mp hc
  cases hm with
  | rst => exact State.lowSettled_of_not_init (by simp [Regs.afterRst])
  | wait => exact hc
  | invalid w e time hr hp hw hd hn => exact (settled (.inl hp)).of_undriven rfl rfl rfl hn
  | command w i start r es time hr hp hw hd hn hm => exact hm.clockTimed (settled (.inl hp)) hn
  | taken hr hp => exact settled (.inr (.inl hp))
  | ready time hr hp hv hcmd hn | readyToRead time hr hp hv hcmd hn | notReady time hr hp hv hcmd hn
  | notReadyToRead time hr hp hv hcmd hn =>
    exact (settled (.inr (.inr (.inl hp)))).of_undriven rfl rfl rfl hn
  | pollwait time hr hp hn => exact (settled (.inr (.inr (.inr hp)))).of_undriven rfl rfl rfl hn
  | pre | shLowBit | shLowSample | gpLowPulse => exact rfl
  | shHigh | gpHigh => exact ⟨_, rfl, rfl⟩
  | pdLow => trivial
  | gpLowLast time hr hp hg hn hd | lowhold time hr hp hn hd =>
    have hjust : s.JustLow := (State.clockTimed_of_low (by simp [hp])).mp hc
    exact fun _ _ => hjust.gap hd
  | pdHigh time hr hp =>
    obtain ⟨-, -, hq⟩ := (Regs.phaseOk_of_pdHigh hp).mp hk
    exact State.lowSettled_of_high hq

end

/-- Settles O54: each part of the invariant is kept by every row of `Moves`. -/
theorem stepKeepsPulseTiming : Obligations.StepKeepsPulseTiming := by
  rintro s t ⟨hi, hord, hlow, hhigh, hc⟩ hst
  obtain ⟨es, hh, hm⟩ := moves_of_step hst
  have hk : s.regs.PhaseOk := hi.2.1
  refine ⟨hm.inv hi, ?_, ?_, ?_, (State.clockTimed_moved hh).mp (hm.clockTimed hk hc)⟩ <;> rw [hh]
  · exact hm.timesOrdered hord
  · exact hm.lowGapsOk hk hc hlow
  · exact hm.highTimesOk hc hhigh

end Sys2Proof.Machine
end

section
/-! What the events of a step may be: no `Accept` outside `IDLE` (R108), no `Get` or `Set` outside the state Init (R69). -/

namespace Sys2Proof.Machine

section
variable {s : State} {r r' : Regs} {v : Level} {i : Instr} {start time : Nat} {es : List Event}

/-- The command port is ready in `IDLE` alone (R108). -/
theorem State.cmdReady_eq_false_iff : s.cmdReady = false ↔ s.regs.phase ≠ .idle := by
  simp [State.cmdReady, State.busy]

/-- Outside `IDLE` nothing is accepted (R108). -/
theorem Moves.no_accept (hm : Moves s r es time) (hp : s.regs.phase ≠ .idle) :
    es.all (fun e => !e.isAccept) = true := by
  cases hm with
  | invalid w e time hr hidle | command w i start r es time hr hidle => exact absurd hidle hp
  | _ => rfl

/-- Outside `IDLE` and `RESP` the engine is initialised (R32, R203). -/
theorem Regs.PhaseOk.life_init (hk : r.PhaseOk) (hidle : r.phase ≠ .idle) (hresp : r.phase ≠ .resp) :
    r.life = .init := by
  cases hp : r.phase with
  | idle => exact absurd hp hidle
  | resp => exact absurd hp hresp
  | poll => exact ((Regs.phaseOk_of_poll hp).mp hk).1
  | pollwait => exact ((Regs.phaseOk_of_pollwait hp).mp hk).1
  | pre => exact ((Regs.phaseOk_of_pre hp).mp hk).1.1
  | shHigh => exact ((Regs.phaseOk_of_shHigh hp).mp hk).1.1
  | shLow => exact ((Regs.phaseOk_of_shLow hp).mp hk).1.1
  | gpHigh => exact ((Regs.phaseOk_of_gpHigh hp).mp hk).1.1
  | gpLow => exact ((Regs.phaseOk_of_gpLow hp).mp hk).1.1
  | pdLow => exact ((Regs.phaseOk_of_pdLow hp).mp hk).1
  | pdHigh => exact ((Regs.phaseOk_of_pdHigh hp).mp hk).1
  | lowhold => exact ((Regs.phaseOk_of_lowhold hp).mp hk).1

/-- An event that uses a line handle carries a time stamp (R72). -/
theorem Event.needsInit_eq_false_of_untimed {e : Event} (h : e.time = none) : e.needsInit = false := by
  cases e with
  | get | set => cases h
  | _ => rfl

/-- Of the commands only those that R244 allows in Init alone use a line in their own step (R69). -/
theorem CommandMoves.init_or_no_wire (hm : CommandMoves r v start i r' es time) :
    r.life = .init ∨ ∀ e ∈ es, e.needsInit = false := by
  cases hm with
  | isready time hl => exact .inl hl
  | pwrdown hl | pwrup hl => exact .inl hl
  | teardown =>
    exact .inr (List.forall_mem_cons.mpr ⟨rfl, fun e he =>
      Event.needsInit_eq_false_of_untimed (releases_untimed _ _ _ e he)⟩)
  | _ => exact .inr (by simp [Event.needsInit])

/-- A `Get` or a `Set` is made in the state Init alone (R69, R285). -/
theorem Moves.init_or_no_wire (hm : Moves s r es time) (hk : s.regs.PhaseOk) :
    s.regs.life = .init ∨ ∀ e ∈ es, e.needsInit = false := by
  cases hm with
  | rst | wait | invalid | taken => exact .inr (by simp [Event.needsInit])
  | command w i start r es time hr hp hw hd hn hc =>
    refine hc.init_or_no_wire.imp_right fun h e he => ?_
    rcases List.mem_append.mp he with he | he
    · exact h e he
    · rw [List.mem_singleton.mp he]
      rfl
  | _ => exact .inl (hk.life_init (by simp [*]) (by simp [*]))

end

/-- Settles O13: a row prepends its events, and outside `IDLE` none of them is an `Accept`. -/
theorem historyOnlyGrowsAndAcceptsInIdle : Obligations.HistoryOnlyGrowsAndAcceptsInIdle := by
  intro s t hst
  obtain ⟨es, hh, hm⟩ := moves_of_step hst
  exact ⟨es, hh, fun h => hm.no_accept (State.cmdReady_eq_false_iff.mp h)⟩

/-- Settles O49: a wire call is made in the state Init, and there the invariant says that both lines are held. -/
theorem wireCallsUseHeldLines : Obligations.WireCallsUseHeldLines := by
  rintro s t ⟨hh, hk, -⟩ hst es hes e he hneeds
  obtain ⟨es', hes', hm⟩ := moves_of_step hst
  obtain rfl : es = es' := List.append_cancel_right (hes.symm.trans hes')
  have hl : s.regs.life = .init := (hm.init_or_no_wire hk).resolve_right fun h => by simp [h e he] at hneeds
  obtain ⟨-, hdata, hclk⟩ := (Regs.handlesOk_of_init hl).mp hh
  exact ⟨hl, hdata, hclk⟩

/-! ## A data pulse (R71) -/

/-- Settles O32: the step T4, its hold begun no later than `T_HIGH_MAX` after the edge. -/
theorem dataPulseShiftsOneBit : Obligations.DataPulseShiftsOneBit := by
  intro s rise hr hp hrise hn
  obtain ⟨sample, fall, -, hsf, hhold, e⟩ := stepShHigh_next s.pinsUsed
  obtain ⟨hmin, hmax⟩ := hhold rise hrise
  exact ⟨_, sample, fall, (step_shHigh hr hp).trans e, hmin, hsf, hmax hn, rfl, shiftIn_toNat _ _, rfl, rfl, rfl⟩

/-! ## INIT with one line for both pins (R134) -/

section
variable {s : State}

/-- A call that is not barred gets the environment's next answer (R84). -/
theorem State.grants_not_barred : s.grants false = s.world.acqs.value Config.freeGrant := by
  simp [State.grants]

/-- A barred call is refused whatever the environment answers (R64). -/
theorem State.grants_barred : s.grants true = false := by
  simp [State.grants]

/-- With no line held no request is barred (R64). -/
theorem State.holdsLine_of_none (hd : s.regs.hdata = none) (hc : s.regs.hclk = none) (pin : Pin) :
    s.holdsLine pin = false := by
  simp [State.holdsLine, hd, hc]

/-- With the data line held, a request for the same line is barred (R64). -/
theorem State.holdsLine_of_data (hd : s.regs.hdata.isSome = true) : s.holdsLine s.regs.dpin = true := by
  simp [State.holdsLine, hd]

/-- INIT's first two calls, both granted by the environment with no line held before, leave the controller and the data
line acquired and the last call to make (R131 lines 4 to 9). -/
theorem State.claimController_of_two_granted (hd : s.regs.hdata = none) (hc : s.regs.hclk = none)
    (hans : s.world.acqs.answers Config.freeGrant 2 = [true, true]) :
    ∃ u : State, s.claimController = u.claimClock ∧
      u.regs = { s.regs with hctrl := some ⟨s.world.handles⟩, hdata := some ⟨s.world.handles + 1⟩,
                             life := .partlyInit } ∧
      u.world.now = s.world.now ∧ u.world.hist = .reqIn s.regs.dpin true :: .opened true :: s.world.hist := by
  simp only [Script.answers, List.cons.injEq, and_true] at hans
  obtain ⟨hopen, hreq⟩ := hans
  have h1 : s.grants false = true := State.grants_not_barred.trans hopen
  generalize hs1 : State.mk { s.regs with hctrl := some ⟨s.world.handles⟩, life := .partlyInit }
    s.openedController.world = s1
  have hr1 : s1.regs = { s.regs with hctrl := some ⟨s.world.handles⟩, life := .partlyInit } := by rw [← hs1]
  have hw1 : s1.world = { s.world with acqs := s.world.acqs.rest, handles := s.world.handles + 1,
                                       hist := .opened true :: s.world.hist } := by rw [← hs1]; simp [h1]
  have hfree : s1.holdsLine s1.regs.dpin = false := State.holdsLine_of_none (by rw [hr1, hd]) (by rw [hr1, hc]) _
  have h2 : s1.grants (s1.holdsLine s1.regs.dpin) = true := by
    rw [hfree, State.grants_not_barred, hw1, hreq]
  have hdpin : s1.regs.dpin = s.regs.dpin := by rw [hr1]
  have he := (State.claimController_of_granted h1).trans
    ((congrArg State.claimData hs1).trans (State.claimData_of_granted h2))
  refine ⟨_, he, ?_, ?_, ?_⟩
  · simp [hr1, hw1]
  · simp [hw1]
  · simp [hw1, hdpin, hdpin ▸ h2]

/-- INIT's last call for the line that its second call claimed is refused (R64, R134). -/
theorem State.claimClock_of_one_line (hd : s.regs.hdata.isSome = true) (hpin : s.regs.cpin = s.regs.dpin) :
    ∃ time, s.world.now ≤ time ∧
      s.claimClock.regs = { s.regs with rstat := .lineUnavailable, rdata := 0, phase := .resp } ∧
      s.claimClock.world.hist = .respond .lineUnavailable 0 time :: .reqOut s.regs.cpin 0 false time ::
        s.world.hist := by
  have hheld : s.later.holdsLine s.regs.cpin = true := hpin ▸ State.holdsLine_of_data (s := s.later) hd
  have hrefused : s.later.grants (s.later.holdsLine s.regs.cpin) = false := hheld ▸ State.grants_barred
  rw [State.claimClock_of_refused hrefused]
  exact ⟨s.later.world.now, s.now_le_later, rfl, by simp [hrefused]⟩

end

/-- Settles O20: the first two calls get the environment's answers, the last is barred by the second. -/
theorem initOnOneLineFails : Obligations.InitOnOneLineFails := by
  intro s d g p hl hh hp hans
  obtain ⟨-, hdata, hclk⟩ := (Regs.handlesOk_of_uninit hl).mp hh
  obtain ⟨u, hu, hregs, hnow, hhist⟩ := State.claimController_of_two_granted
    (s := { regs := { s.regs with cmdq := opInit, dpin := d, cpin := d, gain := p }, world := s.world }) hdata hclk hans
  obtain ⟨time, hn, hr, hend⟩ := State.claimClock_of_one_line (s := u) (by rw [hregs]; rfl) (by rw [hregs])
  refine ⟨u.claimClock, time, ?_, hnow ▸ hn, ?_, ?_⟩
  · exact (execInit_of_supported hl hp).trans (congrArg Host.Outcome.next hu)
  · rw [hr, hregs]
    rfl
  · rw [hend, hhist, hregs]

end Sys2Proof.Machine
end

section
/-! Runs of the engine: several steps as one, with what they sample and the shape of what they append; the frame of a read as
such a run, pulse by pulse (R111, R163 to R166). -/

namespace Sys2Proof.Machine

/-- `t` is reached from `s` in `n` steps, which use `n` entries of the host, sample `samples` (oldest first) and append events
that are `shape` but for their time stamps (newest first). -/
structure Runs (n : Nat) (s t : State) (samples : List Level) (shape : List Event) : Prop where
  run : Host.Core.run core n s = .next t
  host : t.world.host = s.world.host.drop n
  coming : ∀ k, s.coming (samples.length + k) = samples ++ t.coming k
  hist : ∃ es, t.world.hist = es ++ s.world.hist ∧ es.map Event.untimed = shape

section
variable {s t u : State} {es : List Event}

/-- The run of no steps. -/
theorem Runs.refl (s : State) : Runs 0 s s [] [] where
  run := run_zero s
  host := rfl
  coming k := by simp
  hist := ⟨[], rfl, rfl⟩

/-- One step that does not sample. -/
theorem Runs.unsampled (hs : step s = .next t) (hhost : t.world.host = s.world.host.tail)
    (hgets : t.world.gets = s.world.gets) (hh : t.world.hist = es ++ s.world.hist) :
    Runs 1 s t [] (es.map Event.untimed) where
  run := run_succ hs
  host := by rw [hhost, List.drop_one]
  coming k := by simp [State.coming_eq hgets]
  hist := ⟨es, hh, rfl⟩

/-- One step that samples once. -/
theorem Runs.sampled (hs : step s = .next t) (hhost : t.world.host = s.world.host.tail)
    (hgets : t.world.gets = s.world.gets.rest) (hh : t.world.hist = es ++ s.world.hist) :
    Runs 1 s t [s.dout] (es.map Event.untimed) where
  run := run_succ hs
  host := by rw [hhost, List.drop_one]
  coming k := by rw [List.length_singleton, Nat.add_comm, s.coming_succ hgets, List.singleton_append]
  hist := ⟨es, hh, rfl⟩

/-- Two runs, one after the other. -/
theorem Runs.trans {m n : Nat} {samples samples' : List Level} {shape shape' : List Event}
    (h : Runs m s t samples shape) (h' : Runs n t u samples' shape') :
    Runs (m + n) s u (samples ++ samples') (shape' ++ shape) where
  run := (run_add h.run).trans h'.run
  host := by rw [h'.host, h.host, List.drop_drop]
  coming k := by
    rw [List.length_append, Nat.add_assoc, h.coming, h'.coming, List.append_assoc]
  hist := by
    obtain ⟨es, hes, hshape⟩ := h.hist
    obtain ⟨es', hes', hshape'⟩ := h'.hist
    exact ⟨es' ++ es, by rw [hes', hes, List.append_assoc], by rw [List.map_append, hshape, hshape']⟩

/-- What a run samples is what was coming (R84). -/
theorem Runs.samples_eq {n : Nat} {samples : List Level} {shape : List Event} (h : Runs n s t samples shape) :
    s.coming samples.length = samples := by
  simpa [State.coming, Script.answers] using h.coming 0

/-- The history after a run, without time stamps. -/
theorem Runs.hist_untimed {n : Nat} {samples : List Level} {shape : List Event} (h : Runs n s t samples shape) :
    t.world.hist.map Event.untimed = shape ++ s.world.hist.map Event.untimed := by
  obtain ⟨es, hes, hshape⟩ := h.hist
  rw [hes, List.map_append, hshape]

/-- What comes after a run is what was coming after its samples. -/
theorem Runs.coming_eq {n k : Nat} {samples rest : List Level} {shape : List Event} (h : Runs n s t samples shape)
    (hs : s.coming (samples.length + k) = samples ++ rest) : t.coming k = rest :=
  List.append_cancel_left ((h.coming k).symm.trans hs)

/-- A host that does not reset in the next steps does not reset in fewer of them. -/
theorem State.NoRst.mono {n k : Nat} (hr : s.NoRst k) (h : n ≤ k) : s.NoRst n :=
  fun p hp => hr p (List.take_subset_take_left _ h hp)

/-- A host that does not reset during a run and the steps after it does not reset in those. -/
theorem Runs.noRst {m n k : Nat} {samples : List Level} {shape : List Event} (h : Runs m s t samples shape)
    (hr : s.NoRst k) (hk : m + n ≤ k) : t.NoRst n := by
  intro p hp
  rw [h.host, List.take_drop] at hp
  exact hr.mono hk p (List.mem_of_mem_drop hp)

end

/-! ## The steps of a frame, as runs of one step -/

section
variable {s : State}

theorem runs_pre (hr : s.pins.rst = false) (hp : s.regs.phase = .pre) : ∃ t, Runs 1 s t [] [.set 1 0] ∧
    t.regs = { s.regs with shreg := 0, bitcnt := 0, sckq := 1, phase := .shHigh } := by
  obtain ⟨time, -, -, e⟩ := stepPre_next s.pinsUsed
  exact ⟨_, Runs.unsampled (es := [_]) ((step_pre hr hp).trans e) rfl rfl rfl, rfl⟩

theorem runs_shHigh (hr : s.pins.rst = false) (hp : s.regs.phase = .shHigh) :
    ∃ t b, Runs 1 s t [b] [.set 0 0, .get b 0] ∧
      t.regs = { s.regs with shreg := shiftIn s.regs.shreg b, bitcnt := s.regs.bitcnt + 1, sckq := 0,
                             phase := .shLow } := by
  obtain ⟨sample, fall, -, -, -, e⟩ := stepShHigh_next s.pinsUsed
  exact ⟨_, s.dout, Runs.sampled (es := [_, _]) ((step_shHigh hr hp).trans e) rfl rfl rfl, rfl⟩

theorem runs_shLow_bit (hr : s.pins.rst = false) (hp : s.regs.phase = .shLow) (hb : s.regs.bitcnt.toNat < 24) :
    ∃ t, Runs 1 s t [] [.set 1 0] ∧ t.regs = { s.regs with sckq := 1, phase := .shHigh } := by
  obtain ⟨time, -, -, e⟩ := stepShLow_next_bit s.pinsUsed hb
  exact ⟨_, Runs.unsampled (es := [_]) ((step_shLow hr hp).trans e) rfl rfl rfl, rfl⟩

theorem runs_shLow_sample (hr : s.pins.rst = false) (hp : s.regs.phase = .shLow) (hb : s.regs.bitcnt = 24) :
    ∃ t, Runs 1 s t [] [.set 1 0] ∧
      t.regs = { s.regs with result := sext32 s.regs.shreg, gpcnt := s.regs.gain, sckq := 1, phase := .gpHigh } := by
  obtain ⟨time, -, -, e⟩ := stepShLow_sample s.pinsUsed hb
  exact ⟨_, Runs.unsampled (es := [_]) ((step_shLow hr hp).trans e) rfl rfl rfl, rfl⟩

theorem runs_gpHigh (hr : s.pins.rst = false) (hp : s.regs.phase = .gpHigh) : ∃ t, Runs 1 s t [] [.set 0 0] ∧
    t.regs = { s.regs with sckq := 0, phase := .gpLow } := by
  obtain ⟨fall, -, -, e⟩ := stepGpHigh_next s.pinsUsed
  exact ⟨_, Runs.unsampled (es := [_]) ((step_gpHigh hr hp).trans e) rfl rfl rfl, rfl⟩

theorem runs_gpLow_pulse (hr : s.pins.rst = false) (hp : s.regs.phase = .gpLow) (hg : 1 < s.regs.gpcnt.toNat) :
    ∃ t, Runs 1 s t [] [.set 1 0] ∧
      t.regs = { s.regs with gpcnt := s.regs.gpcnt - 1, sckq := 1, phase := .gpHigh } := by
  obtain ⟨time, -, -, e⟩ := stepGpLow_next_pulse s.pinsUsed hg
  exact ⟨_, Runs.unsampled (es := [_]) ((step_gpLow hr hp).trans e) rfl rfl rfl, rfl⟩

theorem runs_gpLow_last (hr : s.pins.rst = false) (hp : s.regs.phase = .gpLow) (hg : s.regs.gpcnt = 1) :
    ∃ t, Runs 1 s t [] [.respond .ok s.regs.result 0] ∧
      t.regs = { s.regs with gpcnt := 0, rstat := .ok, rdata := s.regs.result, phase := .resp } := by
  obtain ⟨time, -, -, e⟩ := stepGpLow_last s.pinsUsed hg
  exact ⟨_, Runs.unsampled (es := [_]) ((step_gpLow hr hp).trans e) rfl rfl rfl, rfl⟩

/-! ## The pulses of a frame -/

/-- The events of the data pulses that sampled `bits`, newest first, without time stamps. -/
def dataPulses (bits : List Level) : List Event := (bits.reverse.map dataPulse).flatten

theorem dataPulses_cons (b : Level) (bits : List Level) : dataPulses (b :: bits) = dataPulses bits ++ dataPulse b := by
  simp [dataPulses]

/-- The events of `m` gain pulses, newest first, without time stamps. -/
def gainPulses (m : Nat) : List Event := (List.replicate m gainPulse).flatten

theorem gainPulses_succ (m : Nat) : gainPulses (m + 1) = gainPulses m ++ gainPulse := by
  simp [gainPulses, List.replicate_succ']

theorem frameEvents_eq (bits : List Level) (g : Nat) : frameEvents bits g = gainPulses g ++ dataPulses bits := rfl

/-- The first data pulse, its rising edge made from `PRE` with the shift register and the count cleared (T3, T4). -/
theorem runs_first_dataPulse (hr : s.NoRst 2) (hp : s.regs.phase = .pre) : ∃ t b, Runs 2 s t [b] (dataPulse b) ∧
    t.regs = { s.regs with shreg := shiftIn 0 b, bitcnt := 1, sckq := 0, phase := .shLow } := by
  obtain ⟨u, hu, hru⟩ := runs_pre hr.pins hp
  have hr1 : u.NoRst 1 := hu.noRst hr (Nat.le_refl _)
  obtain ⟨t, b, ht, hrt⟩ := runs_shHigh hr1.pins (by rw [hru])
  refine ⟨t, b, hu.trans ht, ?_⟩
  rw [hrt, hru]
  rfl

/-- A further data pulse (T5a, T4). -/
theorem runs_dataPulse (hr : s.NoRst 2) (hp : s.regs.phase = .shLow) (hb : s.regs.bitcnt.toNat < 24) :
    ∃ t b, Runs 2 s t [b] (dataPulse b) ∧
      t.regs = { s.regs with shreg := shiftIn s.regs.shreg b, bitcnt := s.regs.bitcnt + 1, sckq := 0,
                             phase := .shLow } := by
  obtain ⟨u, hu, hru⟩ := runs_shLow_bit hr.pins hp hb
  have hr1 : u.NoRst 1 := hu.noRst hr (Nat.le_refl _)
  obtain ⟨t, b, ht, hrt⟩ := runs_shHigh hr1.pins (by rw [hru])
  refine ⟨t, b, hu.trans ht, ?_⟩
  rw [hrt, hru]

/-- The data pulses that are left, up to the 24th. -/
theorem runs_dataPulses {m : Nat} (hr : s.NoRst (2 * m)) (hp : s.regs.phase = .shLow) (hq : s.regs.sckq = 0)
    (hb : s.regs.bitcnt.toNat + m = 24) :
    ∃ t bits, bits.length = m ∧ Runs (2 * m) s t bits (dataPulses bits) ∧
      t.regs = { s.regs with shreg := bits.foldl shiftIn s.regs.shreg, bitcnt := 24 } := by
  induction m generalizing s with
  | zero =>
    have h24 : s.regs.bitcnt = 24 := BitVec.eq_of_toNat_eq hb
    exact ⟨s, [], rfl, Runs.refl s, by rw [← h24]; rfl⟩
  | succ m ih =>
    have hlt : s.regs.bitcnt.toNat < 24 := by omega
    rw [Nat.mul_succ, Nat.add_comm (2 * m)] at hr ⊢
    obtain ⟨u, b, hu, hru⟩ := runs_dataPulse (hr.mono (Nat.le_add_right _ _)) hp hlt
    obtain ⟨t, bits, hlen, ht, hrt⟩ := ih (hu.noRst hr (Nat.le_refl _)) (by rw [hru]) (by rw [hru])
      (by rw [hru, bitcnt_succ_toNat hlt]; omega)
    refine ⟨t, b :: bits, by rw [List.length_cons, hlen], dataPulses_cons b bits ▸ hu.trans ht, ?_⟩
    simp only [hrt, hru, hp, hq, List.foldl_cons]

/-- A gain pulse after the first (T7a, T6). -/
theorem runs_gainPulse (hr : s.NoRst 2) (hp : s.regs.phase = .gpLow) (hg : 1 < s.regs.gpcnt.toNat) :
    ∃ t, Runs 2 s t [] gainPulse ∧
      t.regs = { s.regs with gpcnt := s.regs.gpcnt - 1, sckq := 0, phase := .gpLow } := by
  obtain ⟨u, hu, hru⟩ := runs_gpLow_pulse hr.pins hp hg
  have hr1 : u.NoRst 1 := hu.noRst hr (Nat.le_refl _)
  obtain ⟨t, ht, hrt⟩ := runs_gpHigh hr1.pins (by rw [hru])
  refine ⟨t, hu.trans ht, ?_⟩
  rw [hrt, hru]

/-- The gain pulses that are left, down to the last. -/
theorem runs_gainPulses {m : Nat} (hr : s.NoRst (2 * m)) (hp : s.regs.phase = .gpLow) (hq : s.regs.sckq = 0)
    (hg : s.regs.gpcnt.toNat = m + 1) :
    ∃ t, Runs (2 * m) s t [] (gainPulses m) ∧ t.regs = { s.regs with gpcnt := 1 } := by
  induction m generalizing s with
  | zero =>
    have h1 : s.regs.gpcnt = 1 := BitVec.eq_of_toNat_eq hg
    exact ⟨s, Runs.refl s, by rw [← h1]⟩
  | succ m ih =>
    rw [Nat.mul_succ, Nat.add_comm (2 * m)] at hr ⊢
    obtain ⟨u, hu, hru⟩ := runs_gainPulse (hr.mono (Nat.le_add_right _ _)) hp (by omega)
    obtain ⟨t, ht, hrt⟩ := ih (hu.noRst hr (Nat.le_refl _)) (by rw [hru]) (by rw [hru])
      (by rw [hru, gpcnt_pred_toNat (by omega)]; omega)
    refine ⟨t, gainPulses_succ m ▸ hu.trans ht, ?_⟩
    simp only [hrt, hru, hp, hq]

/-- The data phase: from `PRE` 24 data pulses, each sampled once and shifted in (R163). -/
theorem runs_dataPhase (hr : s.NoRst 48) (hp : s.regs.phase = .pre) :
    ∃ t bits, bits.length = 24 ∧ Runs 48 s t bits (dataPulses bits) ∧
      t.regs = { s.regs with shreg := bits.foldl shiftIn 0, bitcnt := 24, sckq := 0, phase := .shLow } := by
  obtain ⟨u, b, hu, hru⟩ := runs_first_dataPulse (hr.mono (by decide)) hp
  obtain ⟨t, bits, hlen, ht, hrt⟩ := runs_dataPulses (m := 23) (hu.noRst hr (by decide)) (by rw [hru]) (by rw [hru])
    (by rw [hru]; rfl)
  refine ⟨t, b :: bits, by rw [List.length_cons, hlen], dataPulses_cons b bits ▸ hu.trans ht, ?_⟩
  simp only [hrt, hru, List.foldl_cons]

/-- The gain phase: `GAIN` gain pulses, and then the answer with the sample's extension (R164, R165). -/
theorem runs_gainPhase {m : Nat} (hr : s.NoRst (2 + 2 * m + 1)) (hp : s.regs.phase = .shLow)
    (hb : s.regs.bitcnt = 24) (hg : s.regs.gain.toNat = m + 1) :
    ∃ t, Runs (2 + 2 * m + 1) s t [] (.respond .ok (sext32 s.regs.shreg) 0 :: gainPulses (m + 1)) ∧
      t.regs = { s.regs with gpcnt := 0, result := sext32 s.regs.shreg, sckq := 0, phase := .resp,
                             rstat := .ok, rdata := sext32 s.regs.shreg } := by
  obtain ⟨u, hu, hru⟩ := runs_shLow_sample hr.pins hp hb
  have hr1 : u.NoRst 1 := hu.noRst hr (by omega)
  obtain ⟨v, hv, hrv⟩ := runs_gpHigh hr1.pins (by rw [hru])
  have hfirst : Runs 2 s v [] gainPulse := hu.trans hv
  obtain ⟨w, hw, hrw⟩ := runs_gainPulses (s := v) (m := m) (hfirst.noRst hr (by omega)) (by rw [hrv]) (by rw [hrv])
    (by rw [hrv, hru, hg])
  have hpulses : Runs (2 + 2 * m) s w [] (gainPulses (m + 1)) := gainPulses_succ m ▸ hfirst.trans hw
  have hr2 : w.NoRst 1 := hpulses.noRst hr (Nat.le_refl _)
  obtain ⟨t, ht, hrt⟩ := runs_gpLow_last hr2.pins (by rw [hrw, hrv]) (by rw [hrw])
  have hres : w.regs.result = sext32 s.regs.shreg := by rw [hrw, hrv, hru]
  rw [hres] at ht hrt
  refine ⟨t, hpulses.trans ht, ?_⟩
  simp only [hrt, hrw, hrv, hru]

/-- A whole frame (R111, R166). -/
theorem runs_frame (hp : s.regs.phase = .pre) (hg : s.regs.gain ≠ 0)
    (hr : s.NoRst (1 + 2 * (24 + s.regs.gain.toNat))) :
    ∃ t bits, bits.length = 24 ∧ Runs (1 + 2 * (24 + s.regs.gain.toNat)) s t bits
        (.respond .ok (sext32 (bits.foldl shiftIn 0)) 0 :: frameEvents bits s.regs.gain.toNat) ∧
      t.regs = { s.regs with shreg := bits.foldl shiftIn 0, bitcnt := 24, gpcnt := 0,
                             result := sext32 (bits.foldl shiftIn 0), sckq := 0, phase := .resp, rstat := .ok,
                             rdata := sext32 (bits.foldl shiftIn 0) } := by
  obtain ⟨m, hm⟩ : ∃ m, s.regs.gain.toNat = m + 1 := ⟨s.regs.gain.toNat - 1, by have := gain_toNat_range hg; omega⟩
  have hn : 1 + 2 * (24 + s.regs.gain.toNat) = 48 + (2 + 2 * m + 1) := by omega
  rw [hn] at hr ⊢
  obtain ⟨u, bits, hlen, hu, hru⟩ := runs_dataPhase (hr.mono (Nat.le_add_right _ _)) hp
  obtain ⟨t, ht, hrt⟩ := runs_gainPhase (s := u) (hu.noRst hr (Nat.le_refl _)) (by rw [hru]) (by rw [hru])
    (by rw [hru, hm])
  have hsh : u.regs.shreg = bits.foldl shiftIn 0 := by rw [hru]
  rw [hsh] at ht hrt
  refine ⟨t, bits, hlen, ?_, ?_⟩
  · have h := hu.trans ht
    rwa [List.append_nil, List.cons_append, ← hm, ← frameEvents_eq] at h
  · simp only [hrt, hru]

end

/-! ## The sample -/

/-- The bits after one was shifted in: the new one at the bottom, the 23 low ones that were there above it (R163). -/
theorem shiftIn_getLsbD (r : Raw) (b : Level) (i : Nat) :
    (shiftIn r b).getLsbD i = if i < 1 then b.getLsbD i else (r.extractLsb' 0 23).getLsbD (i - 1) :=
  BitVec.getLsbD_append

/-- The bit shifted in stands at the bottom (R163). -/
theorem shiftIn_extractLsb'_zero (r : Raw) (b : Level) : (shiftIn r b).extractLsb' 0 1 = b := by
  apply BitVec.eq_of_getLsbD_eq
  intro i hi
  rw [BitVec.getLsbD_extractLsb', Nat.zero_add, shiftIn_getLsbD, if_pos hi]
  simp [hi]

/-- One more bit shifted in moves the bits that were there one place up (R163). -/
theorem shiftIn_extractLsb'_succ (r : Raw) (b : Level) {i : Nat} (h : i + 1 < 24) :
    (shiftIn r b).extractLsb' (i + 1) 1 = r.extractLsb' i 1 := by
  apply BitVec.eq_of_getLsbD_eq
  intro j hj
  obtain rfl : j = 0 := by omega
  rw [BitVec.getLsbD_extractLsb', shiftIn_getLsbD, if_neg (by omega)]
  simp
  omega

/-- The bits shifted in stand in the register most significant first, the last one at the bottom (R74). -/
theorem foldl_shiftIn_bit (r : Raw) {bits : List Level} (hlen : bits.length ≤ 24) {n i : Nat}
    (hn : n + i + 1 = bits.length) : bits[n]? = some ((bits.foldl shiftIn r).extractLsb' i 1) := by
  induction bits using List.reverseRecOn generalizing i with
  | nil => cases hn
  | append_singleton bits b ih =>
    rw [List.length_append, List.length_singleton] at hlen hn
    rw [List.foldl_append, List.foldl_cons, List.foldl_nil]
    cases i with
    | zero =>
      obtain rfl : n = bits.length := by omega
      rw [List.getElem?_concat_length, shiftIn_extractLsb'_zero]
    | succ i =>
      rw [List.getElem?_append_left (by omega), shiftIn_extractLsb'_succ _ _ (by omega)]
      exact ih (by omega) (by omega)

/-- A raw value is given by its bits. -/
theorem raw_eq_of_bits {r v : Raw} (h : ∀ n, n < 24 → r.extractLsb' (23 - n) 1 = v.extractLsb' (23 - n) 1) : r = v := by
  apply BitVec.eq_of_getLsbD_eq
  intro i hi
  have hbit := congrArg (BitVec.getLsbD · 0) (h (23 - i) (by omega))
  simpa [show 23 - (23 - i) = i by omega] using hbit

theorem bitsOf_length (v : Raw) : (bitsOf v).length = 24 := by
  simp [bitsOf]

theorem bitsOf_getElem? (v : Raw) {n : Nat} (hn : n < 24) : (bitsOf v)[n]? = some (v.extractLsb' (23 - n) 1) := by
  simp [bitsOf, hn]

/-- The bits of a sample, most significant first, shift in to the sample (R74, R86). -/
theorem foldl_shiftIn_bitsOf (v : Raw) : (bitsOf v).foldl shiftIn 0 = v := by
  refine raw_eq_of_bits fun n hn => ?_
  have hlen := bitsOf_length v
  have h := foldl_shiftIn_bit 0 hlen.le (n := n) (i := 23 - n) (by omega)
  rw [bitsOf_getElem? v hn, Option.some_inj] at h
  exact h.symm

/-- Settles O35: the frame as a run of pulses, its samples the levels that were coming. -/
theorem frameReadsTwentyFourBits : Obligations.FrameReadsTwentyFourBits := by
  intro s hp hg hr
  obtain ⟨t, bits, hlen, ht, hrt⟩ := runs_frame hp hg hr
  have hbits : s.coming 24 = bits := hlen ▸ ht.samples_eq
  refine ⟨t, bits.foldl shiftIn 0, ht.run, fun n hn => ?_, hrt, ?_⟩
  · rw [hbits]
    exact foldl_shiftIn_bit 0 hlen.le (by omega)
  · rw [ht.hist_untimed, hbits]
    rfl

/-! ## The pulses as the chip counts them -/

theorem Event.untimed_isRise (e : Event) : e.untimed.isRise = e.isRise := by
  cases e <;> rfl

theorem countP_isRise_dataPulses (bits : List Level) : (dataPulses bits).countP Event.isRise = bits.length := by
  induction bits with
  | nil => rfl
  | cons b bits ih =>
    rw [dataPulses_cons, List.countP_append, ih]
    rfl

theorem countP_isRise_gainPulses (m : Nat) : (gainPulses m).countP Event.isRise = m := by
  induction m with
  | zero => rfl
  | succ m ih =>
    rw [gainPulses_succ, List.countP_append, ih]
    rfl

/-- A frame has one rising edge for each bit and each gain pulse (R88, R111). -/
theorem countP_isRise_frameEvents (bits : List Level) (g : Nat) :
    (frameEvents bits g).countP Event.isRise = bits.length + g := by
  rw [frameEvents_eq, List.countP_append, countP_isRise_gainPulses, countP_isRise_dataPulses, Nat.add_comm]

/-- The pulse count of a supported code selects that code (R88, R104). -/
theorem selectedGain_of_pulses {code : Nat} {p : BitVec 2} (h : pulses code = some p) :
    selectedGain (24 + p.toNat) = some code := by
  rcases pulses_eq_some.mp h with ⟨rfl, rfl⟩ | ⟨rfl, rfl⟩ | ⟨rfl, rfl⟩ <;> rfl

/-- Settles O41: the frame's rising edges, counted by its shape, select the code; the rest is the chip's staleness. -/
theorem newGainShowsOneReadLater : Obligations.NewGainShowsOneReadLater := by
  intro s code hcode hp hr
  obtain ⟨t, bits, hlen, ht, -⟩ := runs_frame hp (pulses_ne_zero hcode) hr
  obtain ⟨es, hes, hshape⟩ := ht.hist
  have hrises : es.countP Event.isRise = 24 + s.regs.gain.toNat := by
    calc es.countP Event.isRise
        = (es.map Event.untimed).countP Event.isRise := by
          rw [List.countP_map]
          exact List.countP_congr fun e _ => by rw [Function.comp_apply, Event.untimed_isRise]
      _ = (frameEvents bits s.regs.gain.toNat).countP Event.isRise := by rw [hshape]; rfl
      _ = 24 + s.regs.gain.toNat := by rw [countP_isRise_frameEvents, hlen]
  have hsel := selectedGain_of_pulses hcode
  rw [← hrises] at hsel
  refine ⟨t, es, ht.run, hes, hrises, hsel, fun before this after hthis hstale => ?_⟩
  obtain ⟨hbefore, hafter, -⟩ := hstale
  rw [hthis, hsel, Option.some_inj] at hafter
  exact ⟨hafter.symm, hbefore⟩

/-! ## A read from its accept to the frame -/

section
variable {s : State}

/-- A presented command is accepted and run (R204). -/
theorem step_of_presented {w : Word} {i : Instr} (hr : s.pins.rst = false) (hp : s.regs.phase = .idle)
    (hw : s.pins.cmd = some w) (hd : decode w = .ok i) : step s = exec i (s.pinsUsed.accept w) := by
  rw [step_idle hr hp]
  simp only [stepIdle, hw, runWord, hd]

theorem exec_read_of_active (hl : s.regs.life = .init) (ha : s.regs.pwr = .active) : exec .read s = .next
    { s with regs := { s.regs with cmdq := opRead, polliv := tPollRead, phase := .poll } } :=
  congrArg Host.Outcome.next ((State.requireInit_of_init (s := s.latch opRead) _ hl).trans
    (State.requireActive_of_active _ ha))

theorem exec_tryread_of_active (hl : s.regs.life = .init) (ha : s.regs.pwr = .active) : exec .tryread s = .next
    { s with regs := { s.regs with cmdq := opTryread, phase := .poll } } :=
  congrArg Host.Outcome.next ((State.requireInit_of_init (s := s.latch opTryread) _ hl).trans
    (State.requireActive_of_active _ ha))

/-- The accept of a read (R161, R168). -/
theorem runs_accept_read {i : Instr} (hi : i = .read ∨ i = .tryread) (hr : s.pins.rst = false)
    (hp : s.regs.phase = .idle) (hl : s.regs.life = .init) (ha : s.regs.pwr = .active)
    (hw : s.pins.cmd = some (encode i)) :
    ∃ t, Runs 1 s t [] [.accepted (encode i) 0] ∧
      t.regs = { s.regs with cmdq := i.opcode, polliv := if i = .read then tPollRead else s.regs.polliv,
                             phase := .poll } := by
  rcases hi with rfl | rfl
  · have hs := (step_of_presented hr hp hw (by rfl)).trans (exec_read_of_active hl ha)
    exact ⟨_, Runs.unsampled (es := [_]) hs rfl rfl rfl, rfl⟩
  · have hs := (step_of_presented hr hp hw (by rfl)).trans (exec_tryread_of_active hl ha)
    exact ⟨_, Runs.unsampled (es := [_]) hs rfl rfl rfl, rfl⟩

/-- A poll of a read that finds the chip ready (T1b). -/
theorem runs_poll_ready (hr : s.pins.rst = false) (hp : s.regs.phase = .poll)
    (hc : s.regs.cmdq = opRead ∨ s.regs.cmdq = opTryread) (hv : s.dout = 0) :
    ∃ t, Runs 1 s t [0] [.get 0 0] ∧ t.regs = { s.regs with phase := .pre } := by
  obtain ⟨time, -, -, e⟩ := stepPoll_low s.pinsUsed hv
  exact ⟨_, hv ▸ Runs.sampled (es := [_]) ((step_poll hr hp).trans (e hc)) rfl rfl rfl, rfl⟩

/-- A poll of a READ that finds the chip not ready, and the wait for the next (T1c, T2). -/
theorem runs_poll_not_ready (hr : s.NoRst 2) (hp : s.regs.phase = .poll) (hc : s.regs.cmdq = opRead)
    (hv : s.dout = 1) : ∃ t, Runs 2 s t [1] [.get 1 0] ∧ t.regs = s.regs := by
  obtain ⟨time, -, e, -⟩ := stepPoll_high s.pinsUsed hv
  have hu := Runs.sampled (es := [_]) ((step_poll hr.pins hp).trans (e (.inr hc))) rfl rfl rfl
  have hr1 := hu.noRst (n := 1) hr (Nat.le_refl _)
  obtain ⟨time', -, -, e'⟩ := stepPollwait_next (State.pinsUsed _)
  have ht := Runs.unsampled (es := []) ((step_pollwait hr1.pins rfl).trans e') rfl rfl rfl
  exact ⟨_, hv ▸ hu.trans ht, by rw [← hp]; rfl⟩

/-- The wait of a read for a chip that is not ready `k` times and then ready (R162). -/
theorem runs_polls {k j : Nat} {rest : List Level} (hr : s.NoRst (2 * k + 1)) (hp : s.regs.phase = .poll)
    (hc : s.regs.cmdq = opRead ∨ (s.regs.cmdq = opTryread ∧ k = 0))
    (hcoming : s.coming (k + 1 + j) = List.replicate k 1 ++ 0 :: rest) :
    ∃ t, Runs (2 * k + 1) s t (List.replicate k 1 ++ [0]) (.get 0 0 :: List.replicate k (.get 1 0)) ∧
      t.regs = { s.regs with phase := .pre } := by
  induction k generalizing s with
  | zero =>
    rw [Nat.zero_add, Nat.add_comm] at hcoming
    have hv : s.dout = 0 := (List.cons.inj hcoming).1
    exact runs_poll_ready hr.pins hp (hc.imp_right And.left) hv
  | succ k ih =>
    have hread : s.regs.cmdq = opRead := hc.resolve_right fun h => by cases h.2
    rw [Nat.add_right_comm (k + 1)] at hcoming
    have hv : s.dout = 1 := (List.cons.inj hcoming).1
    obtain ⟨u, hu, hru⟩ := runs_poll_not_ready (hr.mono (by omega)) hp hread hv
    obtain ⟨t, ht, hrt⟩ := ih (hu.noRst hr (by omega)) (by rw [hru, hp]) (.inl (by rw [hru, hread]))
      (hu.coming_eq (by rwa [List.length_singleton, Nat.add_comm 1]))
    have hn : 2 * (k + 1) + 1 = 2 + (2 * k + 1) := by omega
    have hshape : List.replicate (k + 1) (Event.get 1 0) = List.replicate k (.get 1 0) ++ [.get 1 0] :=
      List.replicate_succ'
    rw [hn, hshape]
    exact ⟨t, hu.trans ht, by rw [hrt, hru]⟩

end

/-- Settles O37: the accept, the polls and the frame in turn; what they sample is what the chip presents. -/
theorem readReturnsTheChipsSample : Obligations.ReadReturnsTheChipsSample := by
  intro s i k v hi hp hl ha hg hw hcoming hr
  have hn : 2 * k + 3 + 2 * (24 + s.regs.gain.toNat) = 1 + (2 * k + 1) + (1 + 2 * (24 + s.regs.gain.toNat)) := by
    omega
  rw [hn] at hr ⊢
  obtain ⟨t1, h1, hr1⟩ := runs_accept_read (hi.imp_right And.left) (hr.mono (n := 1) (by omega)).pins hp hl ha hw
  have hcoming1 : t1.coming (k + 1 + 24) = List.replicate k 1 ++ 0 :: bitsOf v :=
    h1.coming_eq (by rw [List.length_nil, Nat.zero_add]; exact hcoming)
  have hcmd : t1.regs.cmdq = opRead ∨ (t1.regs.cmdq = opTryread ∧ k = 0) := by
    rw [hr1]
    rcases hi with rfl | ⟨rfl, hk⟩
    · exact .inl rfl
    · exact .inr ⟨rfl, hk⟩
  obtain ⟨t2, h2, hr2⟩ := runs_polls (h1.noRst hr (by omega)) (by rw [hr1]) hcmd hcoming1
  have hpolled := h1.trans h2
  have hgain : t2.regs.gain = s.regs.gain := by rw [hr2, hr1]
  obtain ⟨t, bits, hlen, h3, hr3⟩ := runs_frame (s := t2) (by rw [hr2]) (by rw [hgain]; exact hg)
    (hpolled.noRst hr (by rw [hgain]))
  have hcoming2 : t2.coming 24 = bitsOf v := h2.coming_eq (by simpa using hcoming1)
  have hbits : bits = bitsOf v := by rw [← h3.samples_eq, hlen, hcoming2]
  rw [hgain, hbits, foldl_shiftIn_bitsOf] at h3
  rw [hbits, foldl_shiftIn_bitsOf] at hr3
  have hread := hpolled.trans h3
  refine ⟨t, hread.run, ?_, ?_⟩
  · simp only [hr3, hr2, hr1]
  · rw [hread.hist_untimed]
    simp

end Sys2Proof.Machine
end

section
/-! Words and their fields (R101, R102): a word is its fields, the decoder and the encoder are inverse to each other (R103), and
each row of the opcode table holds the words of one mnemonic (R105, R107). -/

namespace Sys2Proof

/-! ## The fields of a word -/

@[simp] theorem valueField_wordV (op : BitVec 4) (v : BitVec 28) : valueField (wordV op v) = v :=
  BitVec.extractLsb'_append_eq_right

@[simp] theorem valueField_wordZ (op : BitVec 4) : valueField (wordZ op) = 0 := valueField_wordV op 0

section
variable (op : BitVec 4) (g : BitVec 8) (c d : Pin)

@[simp] theorem dpinField_wordI : dpinField (wordI op g c d) = d := BitVec.extractLsb'_append_eq_right

@[simp] theorem cpinField_wordI : cpinField (wordI op g c d) = c := by
  rw [cpinField, wordI, BitVec.extractLsb'_append_eq_of_le (by decide)]
  exact BitVec.extractLsb'_append_eq_right

@[simp] theorem gainField_wordI : gainField (wordI op g c d) = g := by
  rw [gainField, wordI, BitVec.extractLsb'_append_eq_of_le (by decide), BitVec.extractLsb'_append_eq_of_le (by decide)]
  exact BitVec.extractLsb'_append_eq_right

@[simp] theorem mbzField_wordI : mbzField (wordI op g c d) = 0 := by
  rw [mbzField, wordI, BitVec.extractLsb'_append_eq_of_le (by decide), BitVec.extractLsb'_append_eq_of_le (by decide),
    BitVec.extractLsb'_append_eq_of_le (by decide)]
  exact BitVec.extractLsb'_append_eq_right

end

/-- A word of format `V` is its opcode and its value (R101). -/
theorem wordV_fields (w : Word) : wordV (opcodeField w) (valueField w) = w := by
  have h := BitVec.extractLsb'_append_extractLsb'_eq_extractLsb' (start₂ := 28) (start₁ := 0) (len₁ := 28) (len₂ := 4)
    (x := w) rfl
  exact h.trans BitVec.extractLsb'_eq_self

/-- A word whose must-be-zero bits in format `I` are zero is its other four fields (R101). -/
theorem wordI_fields {w : Word} (hz : mbzField w = 0) :
    wordI (opcodeField w) (gainField w) (cpinField w) (dpinField w) = w := by
  rw [wordI, ← hz]
  simp only [opcodeField, mbzField, gainField, cpinField, dpinField]
  iterate 4 rw [BitVec.extractLsb'_append_extractLsb'_eq_extractLsb' (by rfl)]
  exact BitVec.extractLsb'_eq_self

theorem wordV_eq_iff {op : BitVec 4} {v : BitVec 28} {w : Word} :
    wordV op v = w ↔ opcodeField w = op ∧ valueField w = v := by
  constructor
  · rintro rfl
    simp
  · rintro ⟨rfl, rfl⟩
    exact wordV_fields w

theorem wordZ_eq_iff {op : BitVec 4} {w : Word} : wordZ op = w ↔ opcodeField w = op ∧ valueField w = 0 :=
  wordV_eq_iff

theorem wordI_eq_iff {op : BitVec 4} {g : BitVec 8} {c d : Pin} {w : Word} : wordI op g c d = w ↔
    opcodeField w = op ∧ mbzField w = 0 ∧ gainField w = g ∧ cpinField w = c ∧ dpinField w = d := by
  constructor
  · rintro rfl
    simp
  · rintro ⟨rfl, hz, rfl, rfl, rfl⟩
    exact wordI_fields hz

/-! ## Decoding and encoding -/

@[simp] theorem decode_encode (i : Instr) : decode (encode i) = .ok i := by
  cases i with
  | init | waitready | setgain => simp [decode, encode]
  | teardown | isready | read | tryread | pwrdown | pwrup => simp [decode, encode, decodeZ]

/-- The words that R107 refuses: a reserved opcode, or a must-be-zero bit of the opcode's format that is not zero. -/
def Reserved (w : Word) : Prop :=
  opcodeField w = 0 ∨ 0xA ≤ (opcodeField w).toNat ∨ (opcodeField w = 0x1 ∧ mbzField w ≠ 0) ∨
    (opcodeField w ≠ 0x1 ∧ opcodeField w ≠ 0x4 ∧ opcodeField w ≠ 0x7 ∧ valueField w ≠ 0)

/-- No command's word is one of them. -/
theorem not_reserved_encode (i : Instr) : ¬ Reserved (encode i) := by
  cases i <;> simp [Reserved, encode]

/-- What is to be shown of the decoder's answer: a command whose word this is, or an error for a word that R107 refuses. -/
def DecodesTo (w : Word) (answer : Except DecodeError Instr) : Prop :=
  (∃ i, answer = .ok i ∧ encode i = w) ∨ (∃ e, answer = .error e ∧ Reserved w)

/-- The decoder's branch of a command of format `Z`. -/
theorem decodeZ_decodesTo {w : Word} {i : Instr} (hop : (opcodeField w).toNat = i.opcode.toNat)
    (hi : encode i = wordZ i.opcode) (hZ : i.opcode ≠ 0x1 ∧ i.opcode ≠ 0x4 ∧ i.opcode ≠ 0x7) :
    DecodesTo w (decodeZ w i) := by
  rw [← BitVec.eq_of_toNat_eq hop] at hi hZ
  obtain ⟨h1, h4, h7⟩ := hZ
  by_cases hv : valueField w = 0
  · exact .inl ⟨i, if_pos hv, hi.trans (wordZ_eq_iff.mpr ⟨rfl, hv⟩)⟩
  · exact .inr ⟨_, if_neg hv, .inr (.inr (.inr ⟨h1, h4, h7, hv⟩))⟩

/-- Every branch of the decoder. -/
theorem decode_decodesTo (w : Word) : DecodesTo w (decode w) := by
  unfold decode
  split
  case h_1 hop =>
    have hop1 : opcodeField w = 0x1 := BitVec.eq_of_toNat_eq hop
    by_cases hz : mbzField w = 0
    · exact .inl ⟨_, if_pos hz, wordI_eq_iff.mpr ⟨hop1, hz, rfl, rfl, rfl⟩⟩
    · exact .inr ⟨_, if_neg hz, .inr (.inr (.inl ⟨hop1, hz⟩))⟩
  case h_4 hop | h_7 hop => exact .inl ⟨_, rfl, wordV_eq_iff.mpr ⟨BitVec.eq_of_toNat_eq hop, rfl⟩⟩
  case h_2 hop | h_3 hop | h_5 hop | h_6 hop | h_8 hop | h_9 hop => exact decodeZ_decodesTo hop rfl (by decide)
  case h_10 =>
    refine .inr ⟨_, rfl, ?_⟩
    by_cases h0 : opcodeField w = 0
    · exact .inl h0
    · have hne : (opcodeField w).toNat ≠ 0 := fun h => h0 (BitVec.eq_of_toNat_eq h)
      have hbig : 0xA ≤ (opcodeField w).toNat := by
        simp only [imp_false] at *
        omega
      exact .inr (.inl hbig)

/-- A word decodes to the command whose word it is, and to no other (R101, R103). -/
theorem decode_eq_ok_iff {w : Word} {i : Instr} : decode w = .ok i ↔ encode i = w := by
  constructor
  · intro hd
    rcases decode_decodesTo w with ⟨j, hj, hw⟩ | ⟨e, he, -⟩
    · cases hj.symm.trans hd
      exact hw
    · cases he.symm.trans hd
  · rintro rfl
    exact decode_encode i

/-- The refused words are those of R107. -/
theorem decode_refused_iff {w : Word} : (∃ e, decode w = .error e) ↔ Reserved w := by
  rcases decode_decodesTo w with ⟨i, hd, rfl⟩ | ⟨e, hd, hw⟩
  · simp [not_reserved_encode]
  · exact iff_of_true ⟨e, hd⟩ hw

/-! ## The rows of the opcode table -/

/-- A word of a row has the row's bits wherever the row's mask is all ones (R105). -/
theorem Mnemonic.isRowOf.bits_eq {m : Mnemonic} {w : Word} (h : m.isRowOf w) {start len : Nat}
    (hm : m.mask.extractLsb' start len = BitVec.allOnes len) :
    w.extractLsb' start len = m.pattern.extractLsb' start len := by
  rw [← h, BitVec.extractLsb'_and, hm, BitVec.and_allOnes]

/-- The word of a command is in the row of its mnemonic. -/
theorem Mnemonic.isRowOf_encode (i : Instr) : i.mnemonic.isRowOf (encode i) := by
  cases i with
  | init d c g =>
    have hmask : (0x1#4 ++ 0#4 ++ g ++ c ++ d) &&& (0xF#4 ++ 0xF#4 ++ 0#8 ++ 0#8 ++ 0#8) =
        0x1#4 ++ 0#4 ++ 0#8 ++ 0#8 ++ 0#8 := by
      simp only [BitVec.and_append, BitVec.and_zero, BitVec.zero_and]
      rfl
    exact hmask
  | waitready v | setgain v =>
    have hzero : v &&& 0#28 = 0#28 := BitVec.and_zero
    exact (BitVec.and_append (x₂ := 0xF#4)).trans (congrArg (_ ++ ·) hzero)
  | teardown | isready | read | tryread | pwrdown | pwrup => rfl

/-- Every word of a row is the word of a command of the row's mnemonic. -/
theorem Mnemonic.isRowOf.exists_encode {m : Mnemonic} {w : Word} (h : m.isRowOf w) :
    ∃ i, encode i = w ∧ i.mnemonic = m := by
  cases m with
  | init => exact ⟨.init _ _ _, wordI_eq_iff.mpr ⟨h.bits_eq rfl, h.bits_eq rfl, rfl, rfl, rfl⟩, rfl⟩
  | waitready => exact ⟨.waitready _, wordV_eq_iff.mpr ⟨h.bits_eq rfl, rfl⟩, rfl⟩
  | setgain => exact ⟨.setgain _, wordV_eq_iff.mpr ⟨h.bits_eq rfl, rfl⟩, rfl⟩
  | teardown => exact ⟨.teardown, wordZ_eq_iff.mpr ⟨h.bits_eq rfl, h.bits_eq rfl⟩, rfl⟩
  | isready => exact ⟨.isready, wordZ_eq_iff.mpr ⟨h.bits_eq rfl, h.bits_eq rfl⟩, rfl⟩
  | read => exact ⟨.read, wordZ_eq_iff.mpr ⟨h.bits_eq rfl, h.bits_eq rfl⟩, rfl⟩
  | tryread => exact ⟨.tryread, wordZ_eq_iff.mpr ⟨h.bits_eq rfl, h.bits_eq rfl⟩, rfl⟩
  | pwrdown => exact ⟨.pwrdown, wordZ_eq_iff.mpr ⟨h.bits_eq rfl, h.bits_eq rfl⟩, rfl⟩
  | pwrup => exact ⟨.pwrup, wordZ_eq_iff.mpr ⟨h.bits_eq rfl, h.bits_eq rfl⟩, rfl⟩

/-- A row of the table holds the words that decode to its mnemonic (R105). -/
theorem Mnemonic.isRowOf_iff {m : Mnemonic} {w : Word} : m.isRowOf w ↔ ∃ i, decode w = .ok i ∧ i.mnemonic = m := by
  simp only [decode_eq_ok_iff]
  constructor
  · exact Mnemonic.isRowOf.exists_encode
  · rintro ⟨i, rfl, rfl⟩
    exact Mnemonic.isRowOf_encode i

/-- Settles O1: the fields of the word are the operands, whose types already give them their widths. -/
theorem decodeInvertsEncode : Obligations.DecodeInvertsEncode := fun i _ => decode_encode i

/-- Settles O2: each branch of the decoder reads the fields that the encoder writes. -/
theorem encodeInvertsDecode : Obligations.EncodeInvertsDecode := fun _ _ => decode_eq_ok_iff.mp

/-- Settles O3: two rows of one word are the mnemonic of the one command it decodes to, and a word that decodes has a row. -/
theorem tableRowsAgreeWithDecoder : Obligations.TableRowsAgreeWithDecoder := by
  refine fun w => ⟨fun m m' h h' => ?_, fun m => Mnemonic.isRowOf_iff, fun hnone => ?_⟩
  · obtain ⟨i, hi, rfl⟩ := Mnemonic.isRowOf_iff.mp h
    obtain ⟨j, hj, rfl⟩ := Mnemonic.isRowOf_iff.mp h'
    cases hi.symm.trans hj
    rfl
  · cases hd : decode w with
    | ok i => exact absurd (Mnemonic.isRowOf_iff.mpr ⟨i, hd, rfl⟩) (hnone i.mnemonic)
    | error e => exact ⟨e, rfl⟩

/-- Settles O4: every branch of the decoder that refuses reads a reserved word, and no command's word is reserved. -/
theorem reservedWordsAreRefused : Obligations.ReservedWordsAreRefused := fun _ => decode_refused_iff

/-- Settles O5: each word is the encoder's for its command. -/
theorem assembledWordsDecode : Obligations.AssembledWordsDecode :=
  ⟨decode_encode (.init 5 6 128), decode_encode (.init 0 255 128), decode_encode .teardown, decode_encode .isready,
    decode_encode (.waitready 100), decode_encode .read, decode_encode .tryread, decode_encode (.setgain 64),
    decode_encode .pwrdown, decode_encode .pwrup⟩

end Sys2Proof
end

section
/-! The single steps of the host's port: a word accepted in `IDLE`, a response taken in `RESP` (R108, R109, R204); and the operands
of SETGAIN and WAITREADY (R102, R104). -/

namespace Sys2Proof.Machine

section
variable {s : State}

/-- A presented word that is no command is accepted and answered (R107, R204). -/
theorem step_of_presented_invalid {w : Word} {e : DecodeError} (hr : s.pins.rst = false) (hp : s.regs.phase = .idle)
    (hw : s.pins.cmd = some w) (hd : decode w = .error e) :
    step s = .next ((s.pinsUsed.accept w).rejectWord w) := by
  rw [step_idle hr hp]
  simp only [stepIdle, hw, runWord, hd]

/-- In `RESP` the response is offered (R109). -/
theorem State.rspValid_of_resp (hp : s.regs.phase = .resp) : s.rspValid = true := by
  simp [State.rspValid, hp]

/-- A response that the host takes ends the command (R203 T11). -/
theorem step_of_taken (hr : s.pins.rst = false) (hp : s.regs.phase = .resp) (ht : s.pins.rspReady = true) :
    step s = .next s.pinsUsed.takeResponse := by
  rw [step_resp hr hp]
  exact if_pos ht

theorem exec_waitready_of_init (iv : BitVec 28) (hl : s.regs.life = .init) : exec (.waitready iv) s = .next
    { s with regs := { s.regs with cmdq := opWaitready, polliv := pollNanos iv, phase := .poll } } :=
  congrArg Host.Outcome.next (State.requireInit_of_init (s := s.latch opWaitready) _ hl)

end

/-- Settles O6: the accept's time is the present and a slack. -/
theorem stepRunsPresentedCommand : Obligations.StepRunsPresentedCommand := fun s _ _ hr hp hw hd =>
  ⟨step_of_presented hr hp hw hd, rfl, _, s.now_le_later, rfl⟩

/-- Settles O7: the accept and the rejection of the word share the time of the accept. -/
theorem invalidWordIsAnswered : Obligations.InvalidWordIsAnswered := fun s _ _ hr hp hw hd =>
  ⟨_, _, step_of_presented_invalid hr hp hw hd, s.now_le_later, rfl, rfl⟩

/-- Settles O10: taking the response is the whole step T11. -/
theorem takenResponseReturnsToIdle : Obligations.TakenResponseReturnsToIdle := fun _ hr hp ht =>
  ⟨State.rspValid_of_resp hp, rfl, rfl, step_of_taken hr hp ht⟩

/-- Settles O16: the three supported numbers fit the 28 bits of the operand. -/
theorem exactlyThreeGainCodes : Obligations.ExactlyThreeGainCodes := by
  intro c p
  have hcode {n : Nat} (hn : n < 2 ^ 28) : c.toNat = n ↔ c = .ofNat 28 n :=
    BitVec.toNat_eq_nat.trans (and_iff_right hn)
  rw [pulses_eq_some, hcode (by decide), hcode (by decide), hcode (by decide)]
  rfl

/-- Settles O24: the product with 1000 fits the 38 bits of `POLLIV`. -/
theorem waitreadyStartsPolling : Obligations.WaitreadyStartsPolling := fun _ iv hl =>
  ⟨pollNanos iv, pollNanos_toNat iv, exec_waitready_of_init iv hl⟩

end Sys2Proof.Machine
end

section
/-! The ledger of acquisitions and releases (R138, R281): what one event does to it, the releases of TEARDOWN, every row of
`Moves`, and the counts that an agreeing ledger bounds. -/

namespace Sys2Proof.Machine

/-- Whether the registers' flag says the resource is held: `State.holds`, which looks at nothing else. -/
def Regs.holds (x : Resource) (r : Regs) : Bool :=
  match x with
  | .controller => r.hctrl.isSome
  | .dataLine => r.hdata.isSome
  | .clockLine => r.hclk.isSome

theorem State.holds_eq (x : Resource) (s : State) : s.holds x = s.regs.holds x := by
  cases x <;> rfl

/-- In Uninit nothing is held (R38 item 1). -/
theorem Regs.holds_of_uninit {r : Regs} (hh : r.HandlesOk) (hl : r.life = .uninit) (x : Resource) :
    r.holds x = false := by
  obtain ⟨hctrl, hdata, hclk⟩ := (Regs.handlesOk_of_uninit hl).mp hh
  cases x <;> simp [Regs.holds, hctrl, hdata, hclk]

/-! ## One event -/

/-- The event bears on the ledger of the resource: it acquires it, gives it back or is a `Reset`. -/
def Event.concerns (x : Resource) (e : Event) : Bool := e.acquires x || e.givesBack x || e.isReset

section
variable (x : Resource)

@[simp] theorem Event.concerns_opened_refused : (Event.opened false).concerns x = false := by cases x <;> rfl
@[simp] theorem Event.concerns_get (v : Level) (t : Nat) : (Event.get v t).concerns x = false := by cases x <;> rfl
@[simp] theorem Event.concerns_set (v : Level) (t : Nat) : (Event.set v t).concerns x = false := by cases x <;> rfl
@[simp] theorem Event.concerns_accepted (w : Word) (t : Nat) : (Event.accepted w t).concerns x = false := by
  cases x <;> rfl
@[simp] theorem Event.concerns_respond (st : Status) (d : Word) (t : Nat) :
    (Event.respond st d t).concerns x = false := by
  cases x <;> rfl

end

/-- No event both acquires a resource and gives it back. -/
theorem Event.not_givesBack_of_acquires {x : Resource} {e : Event} (h : e.acquires x = true) :
    e.givesBack x = false := by
  cases e with
  | opened | reqIn | reqOut => cases x <;> rfl
  | _ => cases x <;> cases h

section
variable {x : Resource} {e : Event} {es hist : List Event} {held : Bool}

theorem ledger_cons_of_unconcerned (h : e.concerns x = false) : ledger x (e :: hist) = ledger x hist := by
  simp only [Event.concerns, Bool.or_eq_false_iff] at h
  obtain ⟨⟨hacq, hgive⟩, hreset⟩ := h
  cases hl : ledger x hist <;> simp [ledger, hl, hacq, hgive, hreset]

theorem ledger_append_of_unconcerned (h : ∀ e ∈ es, e.concerns x = false) :
    ledger x (es ++ hist) = ledger x hist := by
  induction es with
  | nil => rfl
  | cons e es ih =>
    rw [List.forall_mem_cons] at h
    exact (ledger_cons_of_unconcerned h.1).trans (ih h.2)

/-- A history that leaves the resource not held is, for what follows it, as good as none. -/
theorem ledger_append_of_not_held (h : ledger x hist = some false) : ledger x (es ++ hist) = ledger x es := by
  induction es with
  | nil => exact h
  | cons e es ih => simp only [List.cons_append, ledger, ih]

/-- After a reset nothing is held (R281). -/
theorem ledger_reset (h : ledger x hist = some held) (t : Nat) : ledger x (.reset t :: hist) = some false := by
  cases x <;> simp [ledger, h, Event.acquires, Event.givesBack, Event.isReset]

/-- What one event of a history in agreement did: it acquired the resource, not held before; gave it back, held before; reset
the engine; or left the resource as it was. -/
theorem ledger_cons_cases (h : ledger x (e :: hist) = some held) : ∃ before, ledger x hist = some before ∧
    ((e.acquires x = true ∧ e.givesBack x = false ∧ before = false ∧ held = true) ∨
      (e.acquires x = false ∧ e.givesBack x = true ∧ before = true ∧ held = false) ∨
      (e.acquires x = false ∧ e.givesBack x = false ∧ e.isReset = true ∧ held = false) ∨
      (e.acquires x = false ∧ e.givesBack x = false ∧ held = before)) := by
  cases hb : ledger x hist with
  | none => simp [ledger, hb] at h
  | some before =>
    refine ⟨before, rfl, ?_⟩
    simp only [ledger, hb] at h
    cases hacq : e.acquires x with
    | true =>
      have hgive := Event.not_givesBack_of_acquires hacq
      cases before <;> simp_all
    | false =>
      cases hgive : e.givesBack x with
      | true => cases before <;> simp_all
      | false => cases hreset : e.isReset <;> simp_all

end

/-! ## The releases of TEARDOWN -/

section
variable {x : Resource} {e : Event} {hist : List Event} {held : Bool}

/-- A resource given back if it is held is held no longer (R138). -/
theorem ledger_release_held (hacq : e.acquires x = false) (hgive : e.givesBack x = true)
    (h : ledger x hist = some held) : ledger x ((if held then [e] else []) ++ hist) = some false := by
  cases held <;> simp [ledger, h, hacq, hgive]

/-- The release of another resource. -/
theorem ledger_release_other (h : e.concerns x = false) : ledger x ((if held then [e] else []) ++ hist) = ledger x hist := by
  cases held with
  | false => rfl
  | true => exact ledger_cons_of_unconcerned h

/-- The releases that TEARDOWN makes before it answers, latest at the head (R137). -/
def Regs.releases (r : Regs) : List Event :=
  (if r.hctrl.isSome then [.closed] else []) ++ (if r.hdata.isSome then [.released .data] else []) ++
    (if r.hclk.isSome then [.released .clk] else [])

/-- Each resource is given back exactly if it is held (R137, R138). -/
theorem ledger_releases {r : Regs} (h : ledger x hist = some (r.holds x)) :
    ledger x (r.releases ++ hist) = some false := by
  simp only [Regs.releases, List.append_assoc]
  cases x with
  | controller =>
    refine ledger_release_held rfl rfl ?_
    rwa [ledger_release_other rfl, ledger_release_other rfl]
  | dataLine =>
    rw [ledger_release_other rfl]
    refine ledger_release_held rfl rfl ?_
    rwa [ledger_release_other rfl]
  | clockLine =>
    rw [ledger_release_other rfl, ledger_release_other rfl]
    exact ledger_release_held rfl rfl h

end

/-! ## Every step -/

section
variable {x : Resource} {r' : Regs} {es : List Event} {time : Nat}

/-- INIT acquires in Uninit, where nothing is held; TEARDOWN gives back what is held; no other command acquires or gives back
anything (R131, R137). -/
theorem CommandMoves.ledger_eq {r : Regs} {v : Level} {start : Nat} {i : Instr} {hist : List Event}
    (hm : CommandMoves r v start i r' es time) (hh : r.HandlesOk) (h : ledger x hist = some (r.holds x)) :
    ledger x (es ++ hist) = some (r'.holds x) := by
  cases hm with
  | initData d c g p h0 hl | initClock d c g p h0 h1 time hl | initDone d c g p h0 h1 h2 time hl =>
    rw [Regs.holds_of_uninit hh hl] at h
    obtain ⟨-, hdata, hclk⟩ := (Regs.handlesOk_of_uninit hl).mp hh
    rw [ledger_append_of_not_held h]
    cases x <;> simp only [Regs.holds, hdata, hclk] <;> rfl
  | teardown =>
    have hend := (ledger_cons_of_unconcerned (e := .respond .ok 0 time) (by simp)).trans (ledger_releases h)
    cases x <;> exact hend
  | _ => exact (ledger_append_of_unconcerned (by simp)).trans h

/-- Every row keeps the ledger: only a command's row and the reset bear on it (R138, R281). -/
theorem Moves.ledger_eq {s : State} (hm : Moves s r' es time) (hh : s.regs.HandlesOk)
    (h : ledger x s.world.hist = some (s.regs.holds x)) : ledger x (es ++ s.world.hist) = some (r'.holds x) := by
  cases hm with
  | rst => cases x <;> exact ledger_reset h _
  | command w i start r' es time hr hp hw hd hn hc =>
    rw [List.append_assoc]
    exact hc.ledger_eq hh ((ledger_cons_of_unconcerned (by simp)).trans h)
  | _ => exact (ledger_append_of_unconcerned (by simp)).trans h

end

/-- Settles O59: every row of `Moves` keeps the ledger, given the handles that each life-cycle state holds. -/
theorem stepKeepsTheLedger : Obligations.StepKeepsTheLedger := by
  rintro s t ⟨hh, -, -⟩ hl hst x
  obtain ⟨es, hes, hm⟩ := moves_of_step hst
  rw [hes, State.holds_eq]
  exact hm.ledger_eq hh (State.holds_eq x s ▸ hl x)

/-- TEARDOWN in full (R137). -/
theorem exec_teardown (s : State) : exec .teardown s = .next
    { regs := { s.regs with cmdq := opTeardown, hclk := none, hdata := none, hctrl := none, life := .uninit,
                            rstat := .ok, rdata := 0, phase := .resp }
      world := { s.world with hist := .respond .ok 0 s.world.now :: (s.regs.releases ++ s.world.hist) } } := by
  refine congrArg Host.Outcome.next ?_
  simp only [State.respond, State.closeController_regs, State.closeController_world, State.releaseData_regs,
    State.releaseData_world, State.releaseClk_regs, State.releaseClk_world, State.latch_regs, State.latch_world,
    Regs.releases, List.append_assoc]
  rfl

/-- Settles O21: the three releases one after the other. -/
theorem teardownReleasesWhatIsHeld : Obligations.TeardownReleasesWhatIsHeld := fun s =>
  ⟨_, exec_teardown s, rfl, rfl, rfl⟩

/-! ## The counts -/

/-- In a history in agreement every acquisition was given back, is still held, or was lost to a reset (R138, R281). -/
theorem acquisitions_eq {x : Resource} {hist : List Event} {held : Bool} (h : ledger x hist = some held) :
    ∃ lost ≤ hist.countP Event.isReset, acquisitions x hist = givings x hist + held.toNat + lost := by
  induction hist generalizing held with
  | nil =>
    cases h
    exact ⟨0, Nat.le_refl _, rfl⟩
  | cons e es ih =>
    obtain ⟨before, hb, hcase⟩ := ledger_cons_cases h
    obtain ⟨lost, hlost, heq⟩ := ih hb
    simp only [acquisitions, givings, List.countP_cons] at heq ⊢
    rcases hcase with ⟨ha, hg, rfl, rfl⟩ | ⟨ha, hg, rfl, rfl⟩ | ⟨ha, hg, hr, rfl⟩ | ⟨ha, hg, rfl⟩
    · exact ⟨lost, Nat.le_add_right_of_le hlost, by simp [ha, hg, heq]; omega⟩
    · exact ⟨lost, Nat.le_add_right_of_le hlost, by simp [ha, hg, heq]⟩
    · have hone := before.toNat_le
      refine ⟨before.toNat + lost, ?_, by simp [ha, hg, heq]; omega⟩
      simp only [hr, if_true]
      omega
    · exact ⟨lost, Nat.le_add_right_of_le hlost, by simp [ha, hg, heq]⟩

/-- TEARDOWN's releases are no resets. -/
theorem Regs.releases_no_reset (r : Regs) : r.releases.countP Event.isReset = 0 := by
  unfold Regs.releases
  cases r.hctrl <;> cases r.hdata <;> cases r.hclk <;> rfl

/-- Settles O60: a history in agreement balances its acquisitions, and after a TEARDOWN nothing is held any more. -/
theorem releasesMatchAcquisitions : Obligations.ReleasesMatchAcquisitions := by
  intro s x hl
  refine ⟨?_, fun hr => ⟨_, exec_teardown s, ?_⟩⟩
  · obtain ⟨lost, -, heq⟩ := acquisitions_eq (hl x)
    omega
  · have hend : ledger x (.respond .ok 0 s.world.now :: (s.regs.releases ++ s.world.hist)) = some false :=
      (ledger_cons_of_unconcerned (by simp)).trans (ledger_releases (State.holds_eq x s ▸ hl x))
    obtain ⟨lost, hlost, heq⟩ := acquisitions_eq hend
    have hnone : s.world.hist.countP Event.isReset = 0 := by
      simpa [List.countP_eq_zero] using hr
    rw [List.countP_cons, List.countP_append, hnone, Regs.releases_no_reset] at hlost
    have hzero : lost = 0 := Nat.le_zero.mp hlost
    rw [heq, hzero]
    rfl

end Sys2Proof.Machine
end

section
/-! INIT call by call (R131, R133): each stage with its call granted and refused, the state in full, and the low hold in which
a successful INIT ends (R136). -/

namespace Sys2Proof.Machine

section
variable {s : State} {barred : Bool} {event : Bool → Event}

/-- What a granted acquisition call leaves in the world (R62, R64, R65). -/
theorem State.acquired_world_of_granted (h : s.grants barred = true) : (s.acquired barred event).world =
    { s.world with acqs := s.world.acqs.rest, handles := s.world.handles + 1, hist := event true :: s.world.hist } := by
  simp [h]

/-- What a refused acquisition call leaves in the world (R62, R64, R65). -/
theorem State.acquired_world_of_refused (h : s.grants barred = false) : (s.acquired barred event).world =
    { s.world with acqs := s.world.acqs.rest, hist := event false :: s.world.hist } := by
  simp [h]

/-- A request for a line that is not held gets the environment's next answer (R64, R84). -/
theorem State.grants_of_free {pin : Pin} (h : s.holdsLine pin = false) :
    s.grants (s.holdsLine pin) = s.world.acqs.value Config.freeGrant :=
  h ▸ State.grants_not_barred

/-- With another line as the data line, and the clock line not held, a line is not held (R64). -/
theorem State.holdsLine_of_other {pin : Pin} (hd : s.regs.dpin ≠ pin) (hc : s.regs.hclk = none) :
    s.holdsLine pin = false := by
  simp [State.holdsLine, hd, hc]

/-! ## The stages -/

theorem State.claimController_of_answer_true (h : s.world.acqs.value Config.freeGrant = true) :
    s.claimController = State.claimData
      { regs := { s.regs with hctrl := some ⟨s.world.handles⟩, life := .partlyInit }
        world := { s.world with acqs := s.world.acqs.rest, handles := s.world.handles + 1,
                                hist := .opened true :: s.world.hist } } := by
  have hg : s.grants false = true := State.grants_not_barred.trans h
  rw [State.claimController_of_granted hg, State.openedController, State.acquired_world_of_granted hg]

theorem State.claimController_of_answer_false (h : s.world.acqs.value Config.freeGrant = false) :
    s.claimController =
      { regs := { s.regs with rstat := .hardwareUnavailable, rdata := 0, phase := .resp }
        world := { s.world with acqs := s.world.acqs.rest,
                                hist := .respond .hardwareUnavailable 0 s.world.now :: .opened false ::
                                  s.world.hist } } := by
  have hg : s.grants false = false := State.grants_not_barred.trans h
  rw [State.claimController_of_refused hg, State.openedController, State.raise, State.respond,
    State.acquired_world_of_refused hg, State.acquired_regs]

theorem State.claimData_of_answer_true (hd : s.regs.hdata = none) (hc : s.regs.hclk = none)
    (h : s.world.acqs.value Config.freeGrant = true) :
    s.claimData = State.claimClock
      { regs := { s.regs with hdata := some ⟨s.world.handles⟩ }
        world := { s.world with acqs := s.world.acqs.rest, handles := s.world.handles + 1,
                                hist := .reqIn s.regs.dpin true :: s.world.hist } } := by
  have hg := (State.grants_of_free (State.holdsLine_of_none hd hc s.regs.dpin)).trans h
  rw [State.claimData_of_granted hg, State.requestedInput, State.acquired_world_of_granted hg]

theorem State.claimData_of_answer_false (hd : s.regs.hdata = none) (hc : s.regs.hclk = none)
    (h : s.world.acqs.value Config.freeGrant = false) :
    s.claimData =
      { regs := { s.regs with rstat := .lineUnavailable, rdata := 0, phase := .resp }
        world := { s.world with acqs := s.world.acqs.rest,
                                hist := .respond .lineUnavailable 0 s.world.now :: .reqIn s.regs.dpin false ::
                                  s.world.hist } } := by
  have hg := (State.grants_of_free (State.holdsLine_of_none hd hc s.regs.dpin)).trans h
  rw [State.claimData_of_refused hg, State.requestedInput, State.raise, State.respond,
    State.acquired_world_of_refused hg, State.acquired_regs]

theorem State.claimClock_of_answer_true (hdc : s.regs.dpin ≠ s.regs.cpin) (hc : s.regs.hclk = none)
    (h : s.world.acqs.value Config.freeGrant = true) :
    s.claimClock =
      { regs := { s.regs with hclk := some ⟨s.world.handles⟩, sckq := 0, pwr := .active, life := .init,
                              phase := .lowhold }
        world := { s.later.world with acqs := s.world.acqs.rest, handles := s.world.handles + 1,
                                      hist := .reqOut s.regs.cpin 0 true s.later.world.now :: s.world.hist } } := by
  have hfree : s.later.holdsLine s.regs.cpin = false := State.holdsLine_of_other hdc hc
  have hg := (State.grants_of_free hfree).trans h
  rw [State.claimClock_of_granted hg, State.requestedOutput, State.acquired_world_of_granted hg]
  rfl

theorem State.claimClock_of_answer_false (hdc : s.regs.dpin ≠ s.regs.cpin) (hc : s.regs.hclk = none)
    (h : s.world.acqs.value Config.freeGrant = false) :
    s.claimClock =
      { regs := { s.regs with rstat := .lineUnavailable, rdata := 0, phase := .resp }
        world := { s.later.world with acqs := s.world.acqs.rest,
                                      hist := .respond .lineUnavailable 0 s.later.world.now ::
                                        .reqOut s.regs.cpin 0 false s.later.world.now :: s.world.hist } } := by
  have hfree : s.later.holdsLine s.regs.cpin = false := State.holdsLine_of_other hdc hc
  have hg := (State.grants_of_free hfree).trans h
  rw [State.claimClock_of_refused hg, State.requestedOutput, State.raise, State.respond,
    State.acquired_world_of_refused hg, State.acquired_regs]
  rfl

end

/-! ## INIT from Uninit with a supported gain -/

section
variable {s : State} {d c : Pin} {g : BitVec 8} {p : BitVec 2} (hl : s.regs.life = .uninit) (hh : s.regs.HandlesOk)
  (hp : pulses g.toNat = some p)

include hl hp in
/-- The controller opened, the data line is next (R131 lines 3 to 6). -/
theorem exec_init_of_opened (h0 : s.world.acqs.value Config.freeGrant = true) :
    exec (.init d c g) s = .next (State.claimData
      { regs := { s.regs with cmdq := opInit, dpin := d, cpin := c, gain := p, hctrl := some ⟨s.world.handles⟩,
                              life := .partlyInit }
        world := { s.world with acqs := s.world.acqs.rest, handles := s.world.handles + 1,
                                hist := .opened true :: s.world.hist } }) :=
  (execInit_of_supported hl hp).trans (congrArg Host.Outcome.next (State.claimController_of_answer_true h0))

include hl hh hp in
/-- The controller and the data line granted, the clock line is next (R131 lines 3 to 9). -/
theorem exec_init_of_data_claimed (h0 : s.world.acqs.value Config.freeGrant = true)
    (h1 : s.world.acqs.rest.value Config.freeGrant = true) :
    exec (.init d c g) s = .next (State.claimClock
      { regs := { s.regs with cmdq := opInit, dpin := d, cpin := c, gain := p, hctrl := some ⟨s.world.handles⟩,
                              hdata := some ⟨s.world.handles + 1⟩, life := .partlyInit }
        world := { s.world with acqs := s.world.acqs.rest.rest, handles := s.world.handles + 2,
                                hist := .reqIn d true :: .opened true :: s.world.hist } }) := by
  obtain ⟨-, hdata, hclk⟩ := (Regs.handlesOk_of_uninit hl).mp hh
  exact (exec_init_of_opened hl hp h0).trans (congrArg Host.Outcome.next
    (State.claimData_of_answer_true hdata hclk h1))

end

/-- Settles O18: the three stages in turn, each call granted; the last is not barred, its line being another. -/
theorem initAcquiresInOrder : Obligations.InitAcquiresInOrder := by
  intro s d c g p hl hh hp hdc hans
  simp only [Script.answers, List.cons.injEq, and_true] at hans
  obtain ⟨h0, h1, h2⟩ := hans
  obtain ⟨-, -, hclk⟩ := (Regs.handlesOk_of_uninit hl).mp hh
  have he : exec (.init d c g) s = _ := (exec_init_of_data_claimed hl hh hp h0 h1).trans (congrArg Host.Outcome.next
    (State.claimClock_of_answer_true hdc hclk h2))
  exact ⟨_, _, he, State.now_le_later _, rfl, rfl, rfl, rfl⟩

/-- Settles O19: the stages up to the refused call; no later stage is entered. -/
theorem initStopsAtFirstRefusal : Obligations.InitStopsAtFirstRefusal := by
  intro s d c g p hl hh hp
  obtain ⟨-, hdata, hclk⟩ := (Regs.handlesOk_of_uninit hl).mp hh
  simp only [Script.answers, List.cons.injEq, and_true]
  refine ⟨fun h0 => ?_, fun ⟨h0, h1⟩ => ?_, fun hdc ⟨h0, h1, h2⟩ => ?_⟩
  · have he : exec (.init d c g) s = _ := (execInit_of_supported hl hp).trans
      (congrArg Host.Outcome.next (State.claimController_of_answer_false h0))
    exact ⟨_, he, rfl, rfl⟩
  · have he : exec (.init d c g) s = _ := (exec_init_of_opened hl hp h0).trans (congrArg Host.Outcome.next
      (State.claimData_of_answer_false hdata hclk h1))
    exact ⟨_, he, rfl, rfl⟩
  · have he : exec (.init d c g) s = _ := (exec_init_of_data_claimed hl hh hp h0 h1).trans (congrArg Host.Outcome.next
      (State.claimClock_of_answer_false hdc hclk h2))
    exact ⟨_, _, he, State.now_le_later _, rfl, rfl⟩

/-! ## The end of a low hold (R136) -/

/-- Settles O22: the step T10, its guard on the latest wire event. -/
theorem lowholdAnswersAfterLowTime : Obligations.LowholdAnswersAfterLowTime := by
  intro s low hr hp hlow
  obtain ⟨time, hn, hguard, e⟩ := stepLowhold_next s.pinsUsed
  exact ⟨_, time, (step_lowhold hr hp).trans e, hguard low hlow, hn, rfl, rfl⟩

end Sys2Proof.Machine
end

section
/-! The ready-detect commands (R151 to R155, R207): ISREADY's one sample; the wait of WAITREADY and READ, poll by poll, up to the
low sample that ends it or for as long as the line never reads low. -/

namespace Sys2Proof.Machine

section
variable {s t : State}

/-! ## ISREADY -/

theorem exec_isready_of_init (hl : s.regs.life = .init) : exec .isready s = .next
    { regs := { s.regs with cmdq := opIsready, rstat := .ok, rdata := readyDatum s.dout, phase := .resp }
      world := { s.later.world with gets := s.world.gets.rest
                                    hist := .respond .ok (readyDatum s.dout) s.later.world.now ::
                                      .get s.dout s.later.world.now :: s.world.hist } } :=
  congrArg Host.Outcome.next (State.requireInit_of_init (s := s.latch opIsready) _ hl)

/-! ## The steps of a wait, as runs of one step -/

/-- The accept of WAITREADY (R153). -/
theorem runs_accept_waitready {iv : BitVec 28} (hr : s.pins.rst = false) (hp : s.regs.phase = .idle)
    (hl : s.regs.life = .init) (hw : s.pins.cmd = some (encode (.waitready iv))) :
    ∃ t, Runs 1 s t [] [.accepted (encode (.waitready iv)) 0] ∧
      t.regs = { s.regs with cmdq := opWaitready, polliv := pollNanos iv, phase := .poll } := by
  have hs := (step_of_presented hr hp hw (decode_encode _)).trans (exec_waitready_of_init iv hl)
  exact ⟨_, Runs.unsampled (es := [_]) hs rfl rfl rfl, rfl⟩

/-- A poll that finds the chip ready ends WAITREADY (T1a). -/
theorem runs_poll_answers (hr : s.pins.rst = false) (hp : s.regs.phase = .poll) (hc : s.regs.cmdq = opWaitready)
    (hv : s.dout = 0) : ∃ t, Runs 1 s t [0] [.respond .ok 0 0, .get 0 0] ∧
      t.regs = { s.regs with rstat := .ok, rdata := 0, phase := .resp } := by
  obtain ⟨time, -, e, -⟩ := stepPoll_low s.pinsUsed hv
  exact ⟨_, hv ▸ Runs.sampled (es := [_, _]) ((step_poll hr hp).trans (e hc)) rfl rfl rfl, rfl⟩

/-- A poll that finds the chip not ready (T1c). -/
theorem runs_poll_high (hr : s.pins.rst = false) (hp : s.regs.phase = .poll)
    (hc : s.regs.cmdq = opWaitready ∨ s.regs.cmdq = opRead) (hv : s.dout = 1) :
    ∃ t, Runs 1 s t [1] [.get 1 0] ∧ t.regs = { s.regs with phase := .pollwait } := by
  obtain ⟨time, -, e, -⟩ := stepPoll_high s.pinsUsed hv
  exact ⟨_, hv ▸ Runs.sampled (es := [_]) ((step_poll hr hp).trans (e hc)) rfl rfl rfl, rfl⟩

/-- The interval between two polls (T2). -/
theorem runs_pollwait (hr : s.pins.rst = false) (hp : s.regs.phase = .pollwait) :
    ∃ t, Runs 1 s t [] [] ∧ t.regs = { s.regs with phase := .poll } := by
  obtain ⟨time, -, -, e⟩ := stepPollwait_next s.pinsUsed
  exact ⟨_, Runs.unsampled (es := []) ((step_pollwait hr hp).trans e) rfl rfl rfl, rfl⟩

/-! ## `k` polls that find the chip not ready -/

/-- `k` polls of a line that reads high `k` times, each with its interval, end where they began but for what was sampled. -/
theorem runs_high_polls {k j : Nat} {rest : List Level} (hr : s.NoRst (2 * k)) (hp : s.regs.phase = .poll)
    (hc : s.regs.cmdq = opWaitready ∨ s.regs.cmdq = opRead)
    (hcoming : s.coming (k + j) = List.replicate k 1 ++ rest) :
    ∃ t, Runs (2 * k) s t (List.replicate k 1) (List.replicate k (.get 1 0)) ∧ t.regs = s.regs := by
  induction k generalizing s with
  | zero => exact ⟨s, Runs.refl s, rfl⟩
  | succ k ih =>
    rw [Nat.mul_succ, Nat.add_comm (2 * k)] at hr ⊢
    rw [Nat.add_right_comm] at hcoming
    have hv : s.dout = 1 := (List.cons.inj hcoming).1
    obtain ⟨u, hu, hru⟩ := runs_poll_high (hr.mono (n := 1) (by omega)).pins hp hc hv
    obtain ⟨w, hw, hrw⟩ := runs_pollwait (hu.noRst (n := 1) hr (by omega)).pins (by rw [hru])
    have hpoll : Runs 2 s w [1] [.get 1 0] := hu.trans hw
    have hregs : w.regs = s.regs := by rw [hrw, hru, ← hp]
    obtain ⟨t, ht, hrt⟩ := ih (hpoll.noRst hr (Nat.le_refl _)) (hregs ▸ hp) (hregs ▸ hc)
      (hpoll.coming_eq (by rwa [List.length_singleton, Nat.add_comm 1]))
    have hshape : List.replicate (k + 1) (Event.get 1 0) = List.replicate k (.get 1 0) ++ [.get 1 0] :=
      List.replicate_succ'
    exact ⟨t, hshape ▸ hpoll.trans ht, hrt.trans hregs⟩

/-! ## A line that never reads low -/

/-- The answers of a script for fewer calls are the first of those for more. -/
theorem Script.answers_prefix {α : Type} (free : Nat → α) {n k : Nat} (c : Script α) (h : n ≤ k) :
    c.answers free n <+: c.answers free k := by
  induction n generalizing k c with
  | zero => exact List.nil_prefix
  | succ n ih =>
    cases k with
    | zero => exact absurd h (Nat.not_succ_le_zero n)
    | succ k => exact (List.prefix_cons_inj _).mpr (ih c.rest (Nat.le_of_succ_le_succ h))

/-- A chip that is never ready during some samples is never ready during fewer of them. -/
theorem State.NeverReady.mono {n k : Nat} (hn : s.NeverReady k) (h : n ≤ k) : s.NeverReady n :=
  fun v hv => hn v ((s.world.gets.answers_prefix Config.freeLevel h).subset hv)

/-- A chip that is never ready reads high at its next sample (R91). -/
theorem State.NeverReady.dout {n : Nat} (hn : s.NeverReady (n + 1)) : s.dout = 1 := hn _ List.mem_cons_self

/-- A chip that is never ready during a run's samples and those after it is never ready during those. -/
theorem Runs.neverReady {m n k : Nat} {samples : List Level} {shape : List Event} (h : Runs m s t samples shape)
    (hn : s.NeverReady k) (hk : samples.length + n ≤ k) : t.NeverReady n := by
  intro v hv
  refine hn.mono hk v ?_
  rw [h.coming]
  exact List.mem_append_right _ hv

/-- The phases of a wait for the chip (R153, R162). -/
def Phase.Waits (p : Phase) : Prop := p = .poll ∨ p = .pollwait

/-- An engine that waits for the chip takes no command (R108). -/
theorem State.cmdReady_of_waits (hp : s.regs.phase.Waits) : s.cmdReady = false := by
  rcases hp with hp | hp <;> simp [State.cmdReady, State.busy, hp]

/-- An engine that waits for the chip offers no response (R109). -/
theorem State.rspValid_of_waits (hp : s.regs.phase.Waits) : s.rspValid = false := by
  rcases hp with hp | hp <;> simp [State.rspValid, hp]

/-- One step of a wait while the line reads high: it goes on waiting, after at most one sample (T1c, T2). -/
theorem runs_waits_step (hr : s.pins.rst = false) (hp : s.regs.phase.Waits)
    (hc : s.regs.cmdq = opWaitready ∨ s.regs.cmdq = opRead) (hv : s.dout = 1) :
    ∃ t polls, polls ≤ 1 ∧ Runs 1 s t (List.replicate polls 1) (List.replicate polls (.get 1 0)) ∧
      t.regs.phase.Waits ∧ t.regs = { s.regs with phase := t.regs.phase } := by
  rcases hp with hp | hp
  · obtain ⟨t, ht, hrt⟩ := runs_poll_high hr hp hc hv
    exact ⟨t, 1, Nat.le_refl _, ht, .inr (by rw [hrt]), by rw [hrt]⟩
  · obtain ⟨t, ht, hrt⟩ := runs_pollwait hr hp
    exact ⟨t, 0, Nat.zero_le _, ht, .inl (by rw [hrt]), by rw [hrt]⟩

/-- Any number of steps of a wait while the line never reads low (R155, R207). -/
theorem runs_waits {n : Nat} (hr : s.NoRst n) (hp : s.regs.phase.Waits)
    (hc : s.regs.cmdq = opWaitready ∨ s.regs.cmdq = opRead) (hn : s.NeverReady n) :
    ∃ t polls, Runs n s t (List.replicate polls 1) (List.replicate polls (.get 1 0)) ∧
      t.regs.phase.Waits ∧ t.regs = { s.regs with phase := t.regs.phase } := by
  induction n generalizing s with
  | zero => exact ⟨s, 0, Runs.refl s, hp, rfl⟩
  | succ n ih =>
    obtain ⟨u, first, hle, hu, hpu, hru⟩ := runs_waits_step hr.pins hp hc hn.dout
    obtain ⟨t, polls, ht, hpt, hrt⟩ := ih (hu.noRst hr (by omega)) hpu (by rw [hru]; exact hc)
      (hu.neverReady hn (by rw [List.length_replicate]; omega))
    have hrun := hu.trans ht
    rw [← List.replicate_add, ← List.replicate_add, Nat.add_comm polls, Nat.add_comm 1] at hrun
    exact ⟨t, first + polls, hrun, hpt, by rw [hrt, hru]⟩

end

/-- Settles O27: the accept, the `k` polls that find the line high, and the one that finds it low, in turn. -/
theorem waitreadyAnswersWhenReady : Obligations.WaitreadyAnswersWhenReady := by
  intro s iv k hp hl hw hr hcoming
  have hn : 2 * k + 2 = 1 + 2 * k + 1 := by omega
  rw [hn] at hr ⊢
  obtain ⟨t1, h1, hr1⟩ := runs_accept_waitready (hr.mono (n := 1) (by omega)).pins hp hl hw
  have hcoming1 : t1.coming (k + 1) = List.replicate k 1 ++ [0] :=
    h1.coming_eq (by rwa [List.length_nil, Nat.zero_add])
  obtain ⟨t2, h2, hr2⟩ := runs_high_polls (h1.noRst hr (by omega)) (by rw [hr1]) (.inl (by rw [hr1])) hcoming1
  have hcoming2 : t2.coming 1 = [0] := h2.coming_eq (by rwa [List.length_replicate])
  have hpolled := h1.trans h2
  obtain ⟨t, h3, hr3⟩ := runs_poll_answers (hpolled.noRst (n := 1) hr (Nat.le_refl _)).pins (by rw [hr2, hr1])
    (by rw [hr2, hr1]) (List.cons.inj hcoming2).1
  have hwait := hpolled.trans h3
  have hregs : t.regs = { s.regs with cmdq := opWaitready, polliv := pollNanos iv, phase := .resp, rstat := .ok,
                                      rdata := 0 } := by
    simp only [hr3, hr2, hr1]
  refine ⟨t, hwait.run, hregs, ?_⟩
  rw [hwait.hist_untimed]
  simp

/-- Settles O28: each step of the wait leads to a step of the wait, by induction on their number. -/
theorem unreadyChipBlocksForever : Obligations.UnreadyChipBlocksForever := by
  intro n s hp hc hr hn
  obtain ⟨t, polls, ht, hpt, hrt⟩ := runs_waits hr hp hc hn
  exact ⟨t, ht.run, hpt, State.cmdReady_of_waits hpt, State.rspValid_of_waits hpt, hrt, polls, ht.hist_untimed⟩

/-- Settles O23: the sample and the answer share a time not before the present. -/
theorem isreadyReportsTheLine : Obligations.IsreadyReportsTheLine := fun s hl =>
  ⟨_, _, exec_isready_of_init hl, s.now_le_later, rfl, rfl, rfl⟩

/-- Settles O26: the step T2, its guard on the latest wire event. -/
theorem pollwaitLetsTheIntervalPass : Obligations.PollwaitLetsTheIntervalPass := by
  intro s last hr hp hlast
  obtain ⟨time, hn, hguard, e⟩ := stepPollwait_next s.pinsUsed
  exact ⟨_, (step_pollwait hr hp).trans e, hguard last hlast, hn, rfl, rfl⟩

end Sys2Proof.Machine
end

section
/-! The sample commands step by step (R161, R168): their accept, the first edge, the sample formed, the gain pulses (R203 T3, T5
to T7). -/

namespace Sys2Proof.Machine

/-- Settles O29: both checks pass. -/
theorem readStartsPolling : Obligations.ReadStartsPolling := fun _ hl ha => exec_read_of_active hl ha

/-- Settles O30: both checks pass. -/
theorem tryreadStartsPolling : Obligations.TryreadStartsPolling := fun _ hl ha => exec_tryread_of_active hl ha

/-- Settles O31: the step T3, its guard on the ready sample. -/
theorem frameBeginsWithClearedShift : Obligations.FrameBeginsWithClearedShift := by
  intro s last hr hp hlast
  obtain ⟨time, hn, hguard, e⟩ := stepPre_next s.pinsUsed
  exact ⟨_, time, (step_pre hr hp).trans e, hguard last hlast, hn, rfl, rfl, rfl, rfl⟩

/-- Settles O33: the steps T5a and T5b, their guard on the falling edge. -/
theorem sampleIsFormedAfterTwentyFourBits : Obligations.SampleIsFormedAfterTwentyFourBits := by
  intro s low hr hp hlow
  refine ⟨fun hb => ?_, fun hb => ?_⟩
  · obtain ⟨time, -, hguard, e⟩ := stepShLow_next_bit s.pinsUsed hb
    exact ⟨_, time, (step_shLow hr hp).trans e, hguard low hlow, rfl, rfl⟩
  · obtain ⟨time, -, hguard, e⟩ := stepShLow_sample s.pinsUsed hb
    exact ⟨_, time, (step_shLow hr hp).trans e, hguard low hlow, rfl, rfl⟩

/-- Settles O34: the steps T6, T7a and T7b, their guards on the pulse's latest edge. -/
theorem gainPulseCountsDown : Obligations.GainPulseCountsDown := by
  intro s edge hr hedge
  refine ⟨fun hp hn => ?_, fun hp hg => ?_, fun hp hg => ?_⟩
  · obtain ⟨fall, -, hguard, e⟩ := stepGpHigh_next s.pinsUsed
    obtain ⟨hmin, hmax⟩ := hguard edge hedge
    exact ⟨_, fall, (step_gpHigh hr hp).trans e, hmin, hmax hn, rfl, rfl, rfl⟩
  · obtain ⟨time, -, hguard, e⟩ := stepGpLow_next_pulse s.pinsUsed hg
    exact ⟨_, time, (step_gpLow hr hp).trans e, hguard edge hedge, rfl, rfl⟩
  · obtain ⟨time, -, hguard, e⟩ := stepGpLow_last s.pinsUsed hg
    exact ⟨_, time, (step_gpLow hr hp).trans e, hguard edge hedge, rfl, rfl⟩

end Sys2Proof.Machine
end

section
/-! Outside `POLL` no step depends on what the line answers (R167): each operation takes the blinded state to its blinded result,
or to one that blinding makes the same, and so does each step made of them. -/

namespace Sys2Proof.Machine

/-! ## What a blinded state still says -/

/-- When a wire event happened does not depend on what was read. -/
theorem Event.wireTime_comp_blind : Event.wireTime ∘ Event.blind = Event.wireTime :=
  funext fun e => by cases e <;> rfl

theorem Event.blind_comp_blind : Event.blind ∘ Event.blind = Event.blind := funext fun e => by cases e <;> rfl

section
variable (s : State)

@[simp] theorem State.blind_regs : s.blind.regs = { s.regs with shreg := 0, result := 0, rdata := 0 } := rfl

@[simp] theorem State.blind_lastT : s.blind.lastT = s.lastT := by
  simp only [State.lastT, lastWireTime, State.blind, List.findSome?_map, Event.wireTime_comp_blind]

@[simp] theorem State.blind_blind : s.blind.blind = s.blind := by
  simp only [State.blind, List.map_map, Event.blind_comp_blind]

/-! ## The operations that commute with blinding -/

theorem State.blind_pinsUsed : s.pinsUsed.blind = s.blind.pinsUsed := rfl

theorem State.blind_later : s.later.blind = s.blind.later := rfl

theorem State.blind_delay (d : Nat) : (s.delay d).blind = s.blind.delay d := by
  simp only [State.delay, State.earliest, State.blind_lastT]
  rfl

theorem State.blind_holdHigh (edge : Option Nat) : (s.holdHigh edge).blind = s.blind.holdHigh edge := by
  cases edge <;> rfl

theorem State.blind_accept (w : Word) : (s.accept w).blind = s.blind.accept w := rfl

theorem State.blind_latch (op : BitVec 4) : (s.latch op).blind = s.blind.latch op := rfl

theorem State.blind_goto (p : Phase) : (s.goto p).blind = s.blind.goto p := rfl

theorem State.blind_memWrite (v : Level) : (s.memWrite v).blind = s.blind.memWrite v := rfl

theorem State.blind_raise (st : Status) : (s.raise st).blind = s.blind.raise st := rfl

theorem State.blind_respond (st : Status) (d : Word) : (s.respond st d).blind = s.blind.respond st 0 := rfl

theorem State.blind_releaseClk : s.releaseClk.blind = s.blind.releaseClk := apply_ite State.blind _ _ _

theorem State.blind_releaseData : s.releaseData.blind = s.blind.releaseData := apply_ite State.blind _ _ _

theorem State.blind_closeController : s.closeController.blind = s.blind.closeController := apply_ite State.blind _ _ _

theorem State.blind_claimClock : s.claimClock.blind = s.blind.claimClock := by
  cases h : s.later.grants (s.later.holdsLine s.regs.cpin) with
  | false => rw [State.claimClock_of_refused h, State.claimClock_of_refused (s := s.blind) h]; rfl
  | true => rw [State.claimClock_of_granted h, State.claimClock_of_granted (s := s.blind) h]; rfl

theorem State.blind_claimData : s.claimData.blind = s.blind.claimData := by
  cases h : s.grants (s.holdsLine s.regs.dpin) with
  | false => rw [State.claimData_of_refused h, State.claimData_of_refused (s := s.blind) h]; rfl
  | true =>
    rw [State.claimData_of_granted h, State.claimData_of_granted (s := s.blind) h, State.blind_claimClock]
    rfl

theorem State.blind_claimController : s.claimController.blind = s.blind.claimController := by
  cases h : s.grants false with
  | false => rw [State.claimController_of_refused h, State.claimController_of_refused (s := s.blind) h]; rfl
  | true =>
    rw [State.claimController_of_granted h, State.claimController_of_granted (s := s.blind) h, State.blind_claimData]
    rfl

end

/-! ## The operations whose blinded result is that of the blinded state -/

/-- What an operation does is, but for what was read, what it does to the blinded state. -/
def LineBlind (f : State → State) : Prop := ∀ s, (f s).blind = (f s.blind).blind

section
variable {f g body : State → State}

theorem LineBlind.of_commutes (h : ∀ s, (f s).blind = f s.blind) : LineBlind f := fun s => by
  rw [← h s, State.blind_blind]

theorem LineBlind.comp (hg : LineBlind g) (hf : LineBlind f) : LineBlind (g ∘ f) := fun s => by
  rw [Function.comp_apply, Function.comp_apply, hg (f s), hf s, ← hg (f s.blind)]

theorem LineBlind.requireInit (h : LineBlind body) : LineBlind (State.requireInit · body) := fun s => by
  by_cases hl : s.regs.life = .init
  · simp only [State.requireInit_of_init _ hl, State.requireInit_of_init (s := s.blind) _ hl, h s]
  · simp only [State.requireInit_of_not_init _ hl, State.requireInit_of_not_init (s := s.blind) _ hl,
      State.blind_raise, State.blind_blind]

theorem LineBlind.requireActive (h : LineBlind body) : LineBlind (State.requireActive · body) := fun s => by
  by_cases ha : s.regs.pwr = .active
  · simp only [State.requireActive_of_active _ ha, State.requireActive_of_active (s := s.blind) _ ha, h s]
  · simp only [State.requireActive_of_not_active _ ha, State.requireActive_of_not_active (s := s.blind) _ ha,
      State.blind_raise, State.blind_blind]

end

/-- The reset step reads nothing of the registers (R280). -/
theorem lineBlind_rstStep : LineBlind State.rstStep := fun s => by
  simp only [State.blind, State.rstStep_regs, State.rstStep_world, State.later_world, List.map_cons, List.map_map,
    Event.blind_comp_blind]
  rfl

theorem lineBlind_memRead : LineBlind State.memRead := fun s => by
  simp [State.blind, Event.blind_comp_blind, Event.blind]

/-- What ISREADY reads goes into its events and its datum alone (R151). -/
theorem lineBlind_isready : LineBlind fun s => s.later.memRead.respond .ok (readyDatum s.later.dout) := fun s => by
  have hread : (s.later.memRead).blind = (s.blind.later.memRead).blind :=
    lineBlind_memRead.comp (.of_commutes State.blind_later) s
  simp only [State.blind_respond, hread]

/-- The sample of a data pulse: one bit read, shifted in and counted (R163). -/
def State.sampleBit (s : State) : State :=
  { s.memRead with regs := { s.regs with shreg := shiftIn s.regs.shreg s.dout, bitcnt := s.regs.bitcnt + 1 } }

theorem lineBlind_sampleBit : LineBlind State.sampleBit := fun s => by
  simp [State.blind, State.sampleBit, Event.blind_comp_blind, Event.blind]

/-! ## The commands and the steps -/

/-- An outcome without what the line answers. -/
def blindOutcome : Host.Outcome State Fault Refusal → Host.Outcome State Fault Refusal
  | .next t => .next t.blind
  | .fault r => .fault r
  | .refused r => .refused r

theorem exists_next_of_blindOutcome {o : Host.Outcome State Fault Refusal} {u : State}
    (h : blindOutcome o = .next u) : ∃ t, o = .next t ∧ u = t.blind := by
  cases o with
  | next t => exact ⟨t, rfl, (Host.Outcome.next.inj h).symm⟩
  | fault r => cases h
  | refused r => cases h

/-- What a step answers is, but for what was read, what it answers in the blinded state. -/
def LineBlindStep (f : State → Host.Outcome State Fault Refusal) : Prop :=
  ∀ s, blindOutcome (f s) = blindOutcome (f s.blind)

theorem LineBlind.next {f : State → State} (h : LineBlind f) : LineBlindStep fun s => .next (f s) :=
  fun s => congrArg Host.Outcome.next (h s)

theorem LineBlindStep.of_commutes {f : State → Host.Outcome State Fault Refusal}
    (h : ∀ s, blindOutcome (f s) = f s.blind) : LineBlindStep f := fun s => by
  rw [h s, h s.blind, State.blind_blind]

/-- A step before which an operation was done that commutes with blinding. -/
theorem LineBlindStep.after {f : State → Host.Outcome State Fault Refusal} {g : State → State}
    (hf : LineBlindStep f) (hg : ∀ s, (g s).blind = g s.blind) : LineBlindStep fun s => f (g s) := fun s => by
  rw [hf (g s), hg s]

theorem execInit_lineBlind (d c : Pin) (g : BitVec 8) : LineBlindStep (execInit d c g) := .of_commutes fun s => by
  by_cases hl : s.regs.life = .uninit
  · cases hp : pulses g.toNat with
    | none =>
      simp only [execInit, State.latch_regs, State.blind_regs, hl, hp]
      rfl
    | some p =>
      rw [execInit_of_supported hl hp, execInit_of_supported (s := s.blind) hl hp]
      exact congrArg Host.Outcome.next (State.blind_claimController _)
  · simp only [execInit, State.latch_regs, State.blind_regs, ne_eq, hl, not_false_eq_true, if_true]
    rfl

theorem execTeardown_lineBlind : LineBlindStep execTeardown := .of_commutes fun s => by
  have hreleased : (s.latch opTeardown).releaseClk.releaseData.closeController.blind =
      (s.blind.latch opTeardown).releaseClk.releaseData.closeController := by
    rw [State.blind_closeController, State.blind_releaseData, State.blind_releaseClk, State.blind_latch]
  simp only [execTeardown, ← hreleased]
  rfl

/-- A command that is latched and then checked for the state Init (R204, R244). -/
theorem LineBlindStep.ofRequireInit {op : BitVec 4} {body : State → State} (h : LineBlind body) :
    LineBlindStep fun s => .next ((s.latch op).requireInit body) :=
  h.requireInit.next.after (State.blind_latch · op)

/-- A command's accept step does not depend on what the line answers (R167). -/
theorem exec_lineBlind (i : Instr) : LineBlindStep (exec i) := by
  cases i with
  | init d c g => exact execInit_lineBlind d c g
  | teardown => exact execTeardown_lineBlind
  | isready => exact .ofRequireInit lineBlind_isready
  | waitready iv => exact .ofRequireInit (.of_commutes fun _ => rfl)
  | read => exact .ofRequireInit (.requireActive (.of_commutes fun _ => rfl))
  | tryread => exact .ofRequireInit (.requireActive (.of_commutes fun _ => rfl))
  | setgain code =>
    refine .ofRequireInit (.of_commutes fun s => ?_)
    cases pulses code.toNat <;> rfl
  | pwrdown => exact .ofRequireInit (.of_commutes fun _ => rfl)
  | pwrup => exact .ofRequireInit (.of_commutes fun _ => rfl)

theorem runWord_lineBlind (w : Word) : LineBlindStep (runWord w) := by
  unfold runWord
  cases decode w with
  | ok i => exact (exec_lineBlind i).after (State.blind_accept · w)
  | error e => exact LineBlind.next (.of_commutes fun _ => rfl)

theorem stepIdle_lineBlind (pins : HostPins) : LineBlindStep (stepIdle pins) := by
  unfold stepIdle
  cases pins.cmd with
  | none => exact LineBlind.next (.of_commutes fun _ => rfl)
  | some w => exact runWord_lineBlind w

theorem stepPollwait_lineBlind : LineBlindStep stepPollwait :=
  LineBlind.next (.of_commutes fun s => by rw [State.blind_goto, State.blind_delay]; rfl)

theorem stepPre_lineBlind : LineBlindStep stepPre := .of_commutes fun s => by
  simp only [stepPre, ← State.blind_delay]
  rfl

/-- The data pulse: the bit that is shifted in changes no time stamp (T4). -/
theorem stepShHigh_lineBlind : LineBlindStep stepShHigh := fun s => by
  have hhold : LineBlind (State.holdHigh s.lastT) := .of_commutes (State.blind_holdHigh · s.lastT)
  have hfall : LineBlind fun u => (u.memWrite 0).goto .shLow := .of_commutes fun _ => rfl
  have hpulse := hfall.comp (hhold.comp (lineBlind_sampleBit.comp hhold)) s
  have he : stepShHigh s.blind = .next
    (((((s.blind.holdHigh s.lastT).sampleBit).holdHigh s.lastT).memWrite 0).goto .shLow) := by
    rw [← State.blind_lastT]
    rfl
  rw [he]
  exact congrArg Host.Outcome.next hpulse

/-- Which pulse begins, the bit count says (T5). -/
theorem stepShLow_lineBlind : LineBlindStep stepShLow := .of_commutes fun s => by
  simp only [stepShLow, ← State.blind_delay, apply_ite blindOutcome]
  rfl

theorem stepGpHigh_lineBlind : LineBlindStep stepGpHigh := .of_commutes fun s => by
  simp only [stepGpHigh, State.blind_lastT, ← State.blind_holdHigh]
  rfl

/-- Whether another pulse begins, the pulse count says (T7). -/
theorem stepGpLow_lineBlind : LineBlindStep stepGpLow := .of_commutes fun s => by
  simp only [stepGpLow, ← State.blind_delay, apply_ite blindOutcome]
  rfl

theorem stepPdLow_lineBlind : LineBlindStep stepPdLow := .of_commutes fun s => by
  simp only [stepPdLow, ← State.blind_delay]
  rfl

theorem stepPdHigh_lineBlind : LineBlindStep stepPdHigh := .of_commutes fun s => by
  simp only [stepPdHigh, ← State.blind_delay]
  rfl

theorem stepLowhold_lineBlind : LineBlindStep stepLowhold := .of_commutes fun s => by
  simp only [stepLowhold, ← State.blind_delay]
  rfl

theorem stepResp_lineBlind (pins : HostPins) : LineBlindStep (stepResp pins) := by
  unfold stepResp
  cases pins.rspReady <;> exact LineBlind.next (.of_commutes fun _ => rfl)

/-- Outside `POLL` the step of the phase does not depend on what the line answers (R167). -/
theorem blindOutcome_phaseStep (pins : HostPins) {s : State} (hp : s.regs.phase ≠ .poll) :
    blindOutcome (phaseStep pins s) = blindOutcome (phaseStep pins s.blind) := by
  simp only [phaseStep, State.blind_regs]
  cases h : s.regs.phase with
  | idle => exact stepIdle_lineBlind pins s
  | poll => exact absurd h hp
  | pollwait => exact stepPollwait_lineBlind s
  | pre => exact stepPre_lineBlind s
  | shHigh => exact stepShHigh_lineBlind s
  | shLow => exact stepShLow_lineBlind s
  | gpHigh => exact stepGpHigh_lineBlind s
  | gpLow => exact stepGpLow_lineBlind s
  | pdLow => exact stepPdLow_lineBlind s
  | pdHigh => exact stepPdHigh_lineBlind s
  | lowhold => exact stepLowhold_lineBlind s
  | resp => exact stepResp_lineBlind pins s

/-- Outside `POLL` a step does in the blinded state what it does in the state itself, but for what was read (R167). -/
theorem blindOutcome_step {s : State} (hp : s.regs.phase ≠ .poll) :
    blindOutcome (step s) = blindOutcome (step s.blind) := by
  cases hr : s.pins.rst with
  | true =>
    rw [step_of_rst hr, step_of_rst (s := s.blind) hr]
    exact lineBlind_rstStep.next.after State.blind_pinsUsed s
  | false =>
    rw [step_of_not_rst hr, step_of_not_rst (s := s.blind) hr]
    exact blindOutcome_phaseStep s.pins (s := s.pinsUsed) hp

/-- Settles O39: both steps are, but for what was read, the step of the one blinded state. -/
theorem dataBitsDoNotSteer : Obligations.DataBitsDoNotSteer := by
  intro s s' t hb hp hs
  have hp' : s.blind.regs.phase ≠ .poll := hp
  rw [hb] at hp'
  have hs' : blindOutcome (step s') = .next t.blind := by
    rw [blindOutcome_step (s := s') hp', ← hb, ← blindOutcome_step hp, hs]
    rfl
  exact exists_next_of_blindOutcome hs'

end Sys2Proof.Machine
end

section
/-! SETGAIN in the state Init (R181): its one step with a supported code. -/

namespace Sys2Proof.Machine

/-- SETGAIN with a supported code passes the check of the life-cycle state, writes `GAIN`, and responds (R181). -/
theorem exec_setgain_of_supported {s : State} {code : BitVec 28} {p : BitVec 2} (hl : s.regs.life = .init)
    (hp : pulses code.toNat = some p) : exec (.setgain code) s = .next
      (State.respond .ok 0 { s with regs := { s.regs with cmdq := opSetgain, gain := p } }) := by
  simp only [exec, execSetgain, State.requireInit_of_init (s := s.latch opSetgain) _ hl, hp]
  rfl

/-- Settles O40: the supported codes are those that `pulses` gives a count (O16). -/
theorem setgainStoresThePulseCount : Obligations.SetgainStoresThePulseCount := fun _ code p hl hcode =>
  exec_setgain_of_supported hl ((exactlyThreeGainCodes code p).mpr hcode)

end Sys2Proof.Machine
end

section
/-! The power commands in the state Init (R191, R194): their accept and the timed steps that end them; and where the record of the
chip's power state changes (R190). -/

namespace Sys2Proof.Machine

/-! ## PWRDOWN and PWRUP -/

section
variable {s : State}

theorem exec_pwrdown_of_init (hl : s.regs.life = .init) : exec .pwrdown s = .next
    { regs := { s.regs with cmdq := opPwrdown, sckq := 0, phase := .pdLow }
      world := { s.world with hist := .set 0 s.world.now :: s.world.hist } } :=
  congrArg Host.Outcome.next (State.requireInit_of_init (s := s.latch opPwrdown) _ hl)

theorem exec_pwrup_of_init (hl : s.regs.life = .init) : exec .pwrup s = .next
    { regs := { s.regs with cmdq := opPwrup, sckq := 0, pwr := .active, phase := .lowhold }
      world := { s.world with hist := .set 0 s.world.now :: s.world.hist } } :=
  congrArg Host.Outcome.next (State.requireInit_of_init (s := s.latch opPwrup) _ hl)

end

/-- Settles O42: the accept, then the steps T8 and T9; the wire event each guard counts from is the drive of the step before. -/
theorem pwrdownHoldsTheClockHigh : Obligations.PwrdownHoldsTheClockHigh := by
  intro s hl
  refine ⟨_, s.world.now, exec_pwrdown_of_init hl, rfl, rfl, fun hr => ?_⟩
  obtain ⟨rise, -, hrise, e1⟩ := stepPdLow_next (State.pinsUsed _)
  have hlow := Runs.unsampled (es := [_]) ((step_pdLow hr.pins rfl).trans e1) rfl rfl rfl
  have hr1 := hlow.noRst (n := 1) hr (Nat.le_refl _)
  obtain ⟨done, -, hdone, e2⟩ := stepPdHigh_next (State.pinsUsed _)
  have hhigh := Runs.unsampled (es := [_]) ((step_pdHigh hr1.pins rfl).trans e2) rfl rfl rfl
  exact ⟨_, rise, done, (hlow.trans hhigh).run, hrise _ rfl, hdone _ rfl, rfl, rfl, rfl⟩

/-- Settles O43: the accept, then the step T10, whose guard counts from the accept's drive. -/
theorem pwrupDrivesTheClockLow : Obligations.PwrupDrivesTheClockLow := by
  intro s hl
  refine ⟨_, s.world.now, exec_pwrup_of_init hl, rfl, rfl, fun hr => ?_⟩
  obtain ⟨done, -, hdone, e⟩ := stepLowhold_next (State.pinsUsed _)
  exact ⟨_, done, run_succ ((step_lowhold hr.pins rfl).trans e), hdone _ rfl, rfl, rfl, rfl⟩

/-! ## The record of the power state -/

/-- The one power state that a command's own step records is Active (R190). -/
theorem CommandMoves.active_or_pwr_eq {r r' : Regs} {v : Level} {start time : Nat} {i : Instr} {es : List Event}
    (hm : CommandMoves r v start i r' es time) : r'.pwr = .active ∨ r'.pwr = r.pwr := by
  cases hm with
  | initDone | pwrup => exact .inl rfl
  | _ => exact .inr rfl

/-- Without a reset the power record changes only where a power-down's high hold ends and in the row of a command (R28). -/
theorem Moves.command_or_powered_down_or_pwr_eq {s : State} {r : Regs} {es : List Event} {time : Nat}
    (hm : Moves s r es time) (h : s.pins.rst = false) :
    (s.regs.phase = .idle ∧ ∃ w i start time' es', s.pins.cmd = some w ∧ decode w = .ok i ∧
      CommandMoves s.regs s.dout start i r es' time') ∨
    (s.regs.phase = .pdHigh ∧ r.pwr = .poweredDown) ∨ r.pwr = s.regs.pwr := by
  cases hm with
  | rst time hr => exact absurd (h.symm.trans hr) (by decide)
  | command w i start r es' time' _ hp hw hd hn hc => exact .inl ⟨hp, w, i, start, _, es', hw, hd, hc⟩
  | pdHigh time _ hp => exact .inr (.inl ⟨hp, rfl⟩)
  | _ => exact .inr (.inr rfl)

/-- Settles O48: two rows write `PWR`, the end of the high hold and a command's, and of the commands INIT and PWRUP. -/
theorem powerRecordTransitions : Obligations.PowerRecordTransitions := by
  intro s t hs hr hne
  obtain ⟨es, -, hm⟩ := moves_of_step hs
  rcases hm.command_or_powered_down_or_pwr_eq hr with ⟨hp, w, i, start, time, es', hw, hd, hc⟩ | ⟨hp, hdown⟩ | heq
  · refine .inr ⟨hc.active_or_pwr_eq.resolve_right hne, hp, w, hw, ?_⟩
    rcases hc.init_or_pwrup_or_pwr_eq with ⟨d, c, g, rfl⟩ | rfl | heq
    · exact .inl ⟨d, c, g, hd⟩
    · exact .inr hd
    · exact absurd heq hne
  · exact .inl ⟨hdown, hp⟩
  · exact absurd heq hne

end Sys2Proof.Machine
end

section
/-! The sequencer's steps: waiting in `IDLE` and `RESP` (R206, R300), the four ends of the `POLL` step (R203 T1), and that the
registers' invariant shuts out the contents in which a step stops (R201). -/

namespace Sys2Proof.Machine

section
variable {s : State}

/-- With no word presented the engine waits in `IDLE` (R206). -/
theorem step_of_unpresented (hr : s.pins.rst = false) (hp : s.regs.phase = .idle) (hw : s.pins.cmd = none) :
    step s = .next s.pinsUsed := by
  rw [step_idle hr hp]
  simp only [stepIdle, hw]

/-- With the response not taken the engine waits in `RESP` (R300). -/
theorem step_of_untaken (hr : s.pins.rst = false) (hp : s.regs.phase = .resp) (ht : s.pins.rspReady = false) :
    step s = .next s.pinsUsed := by
  rw [step_resp hr hp]
  exact if_neg (Bool.eq_false_iff.mp ht)

end

/-- In `POLL` the command in progress is one that waits for the chip or samples it (R33, R203 T1). -/
theorem Regs.PhaseOk.cmdq_of_poll {r : Regs} (hk : r.PhaseOk) (hp : r.phase = .poll) :
    r.cmdq = opWaitready ∨ r.cmdq = opRead ∨ r.cmdq = opTryread := by
  obtain ⟨-, -, hwait | ⟨-, -, hread⟩⟩ := (Regs.phaseOk_of_poll hp).mp hk
  · exact .inl hwait
  · exact .inr hread

/-- Settles O11: each of the two waits only uses the host's entry. -/
theorem quiescentEngineWaits : Obligations.QuiescentEngineWaits := by
  rintro s hr (⟨hp, hw⟩ | ⟨hp, ht⟩)
  · exact step_of_unpresented hr hp hw
  · exact step_of_untaken hr hp ht

/-- Settles O25: the level sampled, then the command in progress, selects one of T1a to T1d. -/
theorem pollStepSamplesOnce : Obligations.PollStepSamplesOnce := by
  intro s hr hp hc
  rcases level_cases s.dout with hv | hv
  · have not_high {p : Prop} (h : s.dout = 1) : p := absurd (hv.symm.trans h) (by decide)
    obtain ⟨time, hn, answers, begins⟩ := stepPoll_low s.pinsUsed hv
    rcases hc with hw | hread
    · exact ⟨_, time, (step_poll hr hp).trans (answers hw), hn, rfl,
        fun _ _ => ⟨rfl, rfl⟩, fun _ h => absurd hw h, not_high, not_high⟩
    · have hw : s.regs.cmdq ≠ 0x4 := by rcases hread with h | h <;> rw [h] <;> decide
      exact ⟨_, time, (step_poll hr hp).trans (begins hread), hn, rfl,
        fun _ h => absurd h hw, fun _ _ => ⟨rfl, rfl⟩, not_high, not_high⟩
  · have not_low {p : Prop} (h : s.dout = 0) : p := absurd (hv.symm.trans h) (by decide)
    obtain ⟨time, hn, waits, answers⟩ := stepPoll_high s.pinsUsed hv
    rcases or_assoc.mpr hc with hwait | ht
    · have hnt : s.regs.cmdq ≠ 0x6 := by rcases hwait with h | h <;> rw [h] <;> decide
      exact ⟨_, time, (step_poll hr hp).trans (waits hwait), hn, rfl,
        not_low, not_low, fun _ _ => ⟨rfl, rfl⟩, fun _ h => absurd h hnt⟩
    · exact ⟨_, time, (step_poll hr hp).trans (answers ht), hn, rfl,
        not_low, not_low, fun _ h => absurd ht h, fun _ _ => ⟨rfl, rfl⟩⟩

/-- Settles O52: of the outcomes of a step, the invariant contradicts each of the three faults. -/
theorem stepsNeverStop : Obligations.StepsNeverStop := by
  rintro s ⟨-, hk, hb, -⟩
  rcases step_moves s with ⟨t, -, e, -⟩ | ⟨-, hp, hw, hr, ht⟩ | ⟨-, -, hb'⟩ | ⟨-, hp, hg⟩
  · exact ⟨t, e⟩
  · rcases hk.cmdq_of_poll hp with h | h | h
    · exact absurd h hw
    · exact absurd h hr
    · exact absurd h ht
  · exact absurd hb' (Nat.not_lt.mpr hb)
  · obtain ⟨-, -, -, hpulses, -⟩ := (Regs.phaseOk_of_gpLow hp).mp hk
    exact absurd hg hpulses

end Sys2Proof.Machine
end

section
/-! Exceptions (R240 to R255): what `raise` writes, the reset that wins over every step, the two checks that refuse a command
before it does anything, and the status each command can end with. -/

namespace Sys2Proof.Machine

/-! ## The state check (R244) -/

section
variable {s : State} {i : Instr}

/-- The two checks of the reads, one of which fails (R161, R168). -/
theorem State.requireInit_requireActive_of_refused (body : State → State)
    (h : ¬ (s.regs.life = .init ∧ s.regs.pwr = .active)) :
    s.requireInit (State.requireActive · body) = s.raise .illegalState := by
  by_cases hl : s.regs.life = .init
  · rw [State.requireInit_of_init _ hl]
    exact State.requireActive_of_not_active body fun ha => h ⟨hl, ha⟩
  · exact State.requireInit_of_not_init _ hl

/-- A command that the table does not allow is answered by its first check that fails (R244). -/
theorem exec_of_not_allowed (h : ¬ s.regs.allows i) :
    exec i s = .next ((s.latch i.opcode).raise .illegalState) := by
  cases i with
  | init d c g => exact if_pos h
  | teardown => exact absurd trivial h
  | isready | waitready iv | setgain code | pwrdown | pwrup =>
    exact congrArg Host.Outcome.next (State.requireInit_of_not_init (s := s.latch _) _ h)
  | read | tryread =>
    exact congrArg Host.Outcome.next (State.requireInit_requireActive_of_refused (s := s.latch _) _ h)

end

/-! ## The statuses of a command -/

section
variable {r r' : Regs} {v : Level} {start time : Nat} {i : Instr} {es : List Event}

/-- A command's own step ends it only with a status that is listed for it (R248). -/
theorem CommandMoves.rstat_mem_commandStatuses (hm : CommandMoves r v start i r' es time) (hp : r'.phase = .resp) :
    r'.rstat ∈ commandStatuses i := by
  cases hm with
  | illegal _ h =>
    cases i with
    | teardown => exact absurd trivial h
    | _ => simp [commandStatuses]
  | initDone | waitready | read | tryread | pwrdown | pwrup => cases hp
  | _ => simp [commandStatuses]

/-- A command that the table allows ends with another status than `IllegalState`, if its own step ends it (R244). -/
theorem CommandMoves.rstat_ne_illegalState (hm : CommandMoves r v start i r' es time) (ha : r.allows i)
    (hp : r'.phase = .resp) : r'.rstat ≠ .illegalState := by
  cases hm with
  | illegal _ h => exact absurd ha h
  | initDone | waitready | read | tryread | pwrdown | pwrup => cases hp
  | _ => exact Status.noConfusion

end

/-- A step that ends the command in progress ends it with `OK`, or is TRYREAD's sample of a high line (R248). -/
theorem Moves.rstat_ok_or_notReady {s : State} {r : Regs} {es : List Event} {time : Nat} (hm : Moves s r es time)
    (hr : s.pins.rst = false) (hidle : s.regs.phase ≠ .idle) (hresp : s.regs.phase ≠ .resp) (hend : r.phase = .resp) :
    r.rstat = .ok ∨
      (r.rstat = .notReady ∧ s.regs.phase = .poll ∧ s.regs.cmdq = opTryread ∧ s.dout = 1) := by
  cases hm with
  | rst time h => exact absurd (hr.symm.trans h) (by decide)
  | wait => exact absurd hend hresp
  | invalid w e time _ hp | command w i start r es time _ hp => exact absurd hp hidle
  | ready | gpLowLast | pdHigh | lowhold => exact .inl rfl
  | notReadyToRead time _ hp hv hc => exact .inr ⟨rfl, hp, hc, hv⟩
  | _ => cases hend

/-- Settles O14: the check answers a refused command; of the rows of an allowed one, none answers `IllegalState`. -/
theorem illegalStateFollowsTheTable : Obligations.IllegalStateFollowsTheTable := by
  intro i s
  obtain ⟨t, es, he, -, hm⟩ := exec_moves i s
  exact ⟨exec_of_not_allowed, fun ha => ⟨t, he, hm.rstat_ne_illegalState ha⟩⟩

/-- Settles O17: the rows of a command's own step, and those of the later steps. -/
theorem commandsEndWithTheirStatuses : Obligations.CommandsEndWithTheirStatuses := by
  refine ⟨fun i s t he hp => ?_, fun s t hs hr hidle hresp hend => ?_⟩
  · obtain ⟨t', es, he', -, hm⟩ := exec_moves i s
    cases he.symm.trans he'
    exact hm.rstat_mem_commandStatuses hp
  · obtain ⟨es, -, hm⟩ := moves_of_step hs
    exact hm.rstat_ok_or_notReady hr hidle hresp hend

/-! ## The reset and the trap entry (R246, R253, R280) -/

/-- Settles O8: the reset step is the whole step, in any phase. -/
theorem rstWinsInEveryPhase : Obligations.RstWinsInEveryPhase := fun s h =>
  ⟨s.pinsUsed.rstStep, s.pinsUsed.later.world.now, step_of_rst h, s.pinsUsed.now_le_later, rfl, rfl, rfl, rfl, rfl, rfl⟩

/-- Settles O12: the two halves of the state after `raise`. -/
theorem raiseWritesOnlyTheResponse : Obligations.RaiseWritesOnlyTheResponse := fun s st =>
  ⟨s.raise_regs st, s.raise_world st⟩

/-! ## The gain check (R243) -/

/-- An operand of any width that is none of the three supported codes has no pulse count (R104, R182). -/
theorem pulses_toNat_eq_none {w : Nat} {c : BitVec w} (h128 : c ≠ 128) (h64 : c ≠ 64) (h32 : c ≠ 32) :
    pulses c.toNat = none := by
  have toNat_ne {n : Nat} (h : c ≠ .ofNat w n) : c.toNat ≠ n := fun hc => h (BitVec.toNat_eq_nat.mp hc).2
  exact pulses_eq_none.mpr ⟨toNat_ne h128, toNat_ne h32, toNat_ne h64⟩

section
variable {s : State}

/-- INIT in the state Uninit with an unsupported code ends at the gain check (R135, R243). -/
theorem exec_init_of_unsupported {g : BitVec 8} (d c : Pin) (hl : s.regs.life = .uninit)
    (hp : pulses g.toNat = none) : exec (.init d c g) s = .next ((s.latch opInit).raise .invalidGain) := by
  have hallowed : ¬ (s.latch opInit).regs.life ≠ .uninit := not_not_intro hl
  simp only [exec, execInit, if_neg hallowed, hp]

/-- SETGAIN in the state Init with an unsupported code ends at the gain check (R181, R243). -/
theorem exec_setgain_of_unsupported {code : BitVec 28} (hl : s.regs.life = .init) (hp : pulses code.toNat = none) :
    exec (.setgain code) s = .next ((s.latch opSetgain).raise .invalidGain) := by
  simp only [exec, execSetgain, State.requireInit_of_init (s := s.latch opSetgain) _ hl, hp]

end

/-- Settles O15: both gain checks come before anything is written or called. -/
theorem invalidGainChangesNothing : Obligations.InvalidGainChangesNothing := fun _ =>
  ⟨fun d c _ hl h128 h64 h32 => exec_init_of_unsupported d c hl (pulses_toNat_eq_none h128 h64 h32),
    fun _ hl h128 h64 h32 => exec_setgain_of_unsupported hl (pulses_toNat_eq_none h128 h64 h32)⟩

end Sys2Proof.Machine
end

section
/-! The time a frame takes (R301): each step within a frame keeps what the holds still to come add up to. -/

namespace Sys2Proof.Machine

/-- The engine is within a frame, `n` steps before its end, and the holds still to come add up to an end no earlier than
`due`: in a high phase of `p` pulses, the present one counted; in a low phase of a low hold and `p` pulses after it. -/
inductive State.FrameDue (due n : Nat) (s : State) : Prop
  | pre (last : Nat) (hp : s.regs.phase = .pre) (hg : s.regs.gain ≠ 0) (hlast : s.lastT = some last)
      (hdue : due ≤ last + tRdySckMin + (24 + s.regs.gain.toNat) * (tHighMin + tLowMin))
      (hn : n = 1 + 2 * (24 + s.regs.gain.toNat))
  | shHigh (p rise : Nat) (hp : s.regs.phase = .shHigh) (hg : s.regs.gain ≠ 0) (hb : s.regs.bitcnt.toNat < 24)
      (hleft : s.regs.bitcnt.toNat + p = 24 + s.regs.gain.toNat) (hlast : s.lastT = some rise)
      (hdue : due ≤ rise + p * (tHighMin + tLowMin)) (hn : n = 2 * p)
  | shLow (p fall : Nat) (hp : s.regs.phase = .shLow) (hg : s.regs.gain ≠ 0) (hb : s.regs.bitcnt.toNat ≤ 24)
      (hleft : s.regs.bitcnt.toNat + p = 24 + s.regs.gain.toNat) (hlast : s.lastT = some fall)
      (hdue : due ≤ fall + tLowMin + p * (tHighMin + tLowMin)) (hn : n = 2 * p + 1)
  | gpHigh (p rise : Nat) (hp : s.regs.phase = .gpHigh) (hg : 0 < s.regs.gpcnt.toNat)
      (hleft : s.regs.gpcnt.toNat = p) (hlast : s.lastT = some rise)
      (hdue : due ≤ rise + p * (tHighMin + tLowMin)) (hn : n = 2 * p)
  | gpLow (p fall : Nat) (hp : s.regs.phase = .gpLow) (hleft : s.regs.gpcnt.toNat = p + 1)
      (hlast : s.lastT = some fall) (hdue : due ≤ fall + tLowMin + p * (tHighMin + tLowMin)) (hn : n = 2 * p + 1)
  | ended (hend : s.world.hist.head? = some (.respond .ok s.regs.rdata s.world.now)) (hdue : due ≤ s.world.now)
      (hn : n = 0)

/-- A falling edge after its hold leaves the low hold and the pulses after it (R70). -/
theorem due_le_of_fall {due rise fall p : Nat} (hdue : due ≤ rise + (p + 1) * (tHighMin + tLowMin))
    (hfall : rise + tHighMin ≤ fall) : due ≤ fall + tLowMin + p * (tHighMin + tLowMin) := by
  rw [Nat.succ_mul] at hdue
  omega

section
variable {s : State} {due n : Nat}

/-- A step within a frame, without a reset, is one step nearer to its end, which is due no earlier (R203 T3 to T7). -/
theorem State.FrameDue.step (h : s.FrameDue due (n + 1)) (hr : s.pins.rst = false) :
    ∃ t, step s = .next t ∧ t.world.host = s.world.host.tail ∧ t.FrameDue due n := by
  cases h with
  | pre last hp hg hlast hdue hn =>
    obtain ⟨time, -, hguard, e⟩ := stepPre_next s.pinsUsed
    have hrise : due ≤ time + (24 + s.regs.gain.toNat) * (tHighMin + tLowMin) :=
      hdue.trans (Nat.add_le_add_right (hguard last hlast) _)
    exact ⟨_, (step_pre hr hp).trans e, rfl, .shHigh (24 + s.regs.gain.toNat) time rfl hg (Nat.zero_lt_succ _)
      (Nat.zero_add _) rfl hrise (by omega)⟩
  | shHigh p rise hp hg hb hleft hlast hdue hn =>
    obtain ⟨q, rfl⟩ : ∃ q, p = q + 1 := ⟨p - 1, by omega⟩
    obtain ⟨sample, fall, -, hle, hguard, e⟩ := stepShHigh_next s.pinsUsed
    have hfall : rise + tHighMin ≤ fall := (hguard rise hlast).1.trans hle
    have hcnt := bitcnt_succ_toNat hb
    have hleft' : (s.regs.bitcnt + 1).toNat + q = 24 + s.regs.gain.toNat := by omega
    exact ⟨_, (step_shHigh hr hp).trans e, rfl,
      .shLow q fall rfl hg (hcnt.trans_le hb) hleft' rfl (due_le_of_fall hdue hfall) (by omega)⟩
  | shLow p fall hp hg hb hleft hlast hdue hn =>
    by_cases hlt : s.regs.bitcnt.toNat < 24
    · obtain ⟨time, -, hguard, e⟩ := stepShLow_next_bit s.pinsUsed hlt
      exact ⟨_, (step_shLow hr hp).trans e, rfl, .shHigh p time rfl hg hlt hleft rfl
        (hdue.trans (Nat.add_le_add_right (hguard fall hlast) _)) (by omega)⟩
    · have h24 : s.regs.bitcnt = 24 := BitVec.eq_of_toNat_eq (Nat.le_antisymm hb (Nat.le_of_not_lt hlt))
      obtain ⟨time, -, hguard, e⟩ := stepShLow_sample s.pinsUsed h24
      exact ⟨_, (step_shLow hr hp).trans e, rfl, .gpHigh p time rfl (gain_toNat_range hg).1
        (show s.regs.gain.toNat = p by omega) rfl
        (hdue.trans (Nat.add_le_add_right (hguard fall hlast) _)) (by omega)⟩
  | gpHigh p rise hp hg hleft hlast hdue hn =>
    obtain ⟨q, rfl⟩ : ∃ q, p = q + 1 := ⟨p - 1, by omega⟩
    obtain ⟨fall, -, hguard, e⟩ := stepGpHigh_next s.pinsUsed
    exact ⟨_, (step_gpHigh hr hp).trans e, rfl,
      .gpLow q fall rfl hleft rfl (due_le_of_fall hdue (hguard rise hlast).1) (by omega)⟩
  | gpLow p fall hp hleft hlast hdue hn =>
    cases p with
    | zero =>
      have h1 : s.regs.gpcnt = 1 := BitVec.eq_of_toNat_eq hleft
      obtain ⟨time, -, hguard, e⟩ := stepGpLow_last s.pinsUsed h1
      have hend : due ≤ time := hdue.trans (by rw [Nat.zero_mul]; exact hguard fall hlast)
      exact ⟨_, (step_gpLow hr hp).trans e, rfl, .ended rfl hend (by omega)⟩
    | succ p =>
      obtain ⟨time, -, hguard, e⟩ := stepGpLow_next_pulse s.pinsUsed (show 1 < s.regs.gpcnt.toNat by omega)
      have hcnt : (s.regs.gpcnt - 1).toNat = p + 1 := by rw [gpcnt_pred_toNat (by omega)]; omega
      exact ⟨_, (step_gpLow hr hp).trans e, rfl, .gpHigh (p + 1) time rfl (hcnt ▸ Nat.succ_pos p) hcnt rfl
        (hdue.trans (Nat.add_le_add_right (hguard fall hlast) _)) (by omega)⟩
  | ended _ _ hn => cases hn

/-- A frame ends after its steps, no earlier than it is due. -/
theorem State.FrameDue.run (h : s.FrameDue due n) (hr : s.NoRst n) :
    ∃ t, Host.Core.run core n s = .next t ∧ t.FrameDue due 0 := by
  induction n generalizing s with
  | zero => exact ⟨s, run_zero s, h⟩
  | succ n ih =>
    obtain ⟨u, hu, hhost, hdue⟩ := h.step hr.pins
    obtain ⟨t, ht, hend⟩ := ih hdue (hr.tail hhost)
    exact ⟨t, (run_succ hu).trans ht, hend⟩

/-- With no step to go the frame has answered, no earlier than it was due. -/
theorem State.FrameDue.at_end (h : s.FrameDue due 0) :
    s.world.hist.head? = some (.respond .ok s.regs.rdata s.world.now) ∧ due ≤ s.world.now := by
  cases h with
  | ended hend hdue => exact ⟨hend, hdue⟩
  | _ => omega

end

/-- Settles O36: at its first step the frame is due when its holds add up, and each step keeps that. -/
theorem frameTakesItsTime : Obligations.FrameTakesItsTime := by
  intro s last hp hg hlast hr
  have hdue := State.FrameDue.pre last hp hg hlast (Nat.le_refl _) rfl
  obtain ⟨t, ht, hend⟩ := hdue.run hr
  exact ⟨t, ht, hend.at_end⟩

end Sys2Proof.Machine
end
